-- ==== Sys2Proof/Word.lean ====
section
/-! DEFINITION. The one word type of the machine: cells, registers, operands and flags are all
unsigned bytes (spec/00_scope.md R15, R10; spec/20_memory.md R55). -/

namespace Sys2Proof

/-- An 8-bit unsigned value: a memory cell, a register, an operand byte, an output event. -/
abbrev Byte := BitVec 8

end Sys2Proof
end

