-- ==== Sys2Proof/Config.lean ====
section
/-! DEFINITION. The parameters of the core (spec/00_scope.md R10) and its fixed reset values
(spec/10_state.md R39). The spec leaves no value open, so there is no free value here. -/

namespace Sys2Proof

/-- `MEM_SIZE`: the number of memory cells (R10); also the first value of pc that addresses none. -/
def Config.memSize : Nat := 256

@[simp] theorem Config.memSize_eq : Config.memSize = 256 := rfl

/-- `NREG`: the number of general registers (R10). -/
def Config.regCount : Nat := 8

@[simp] theorem Config.regCount_eq : Config.regCount = 8 := rfl

/-- `SP_INDEX`: the register that is the stack pointer (R10, R23). -/
def Config.spIndex : Fin 8 := 7

@[simp] theorem Config.spIndex_eq : Config.spIndex = 7 := rfl

/-- `SP_RESET`: the stack pointer after reset, the source's own value (R10, R39). -/
def Config.spReset : Byte := 0xF4

/-- Reset value of R0 to R6. UNVERIFIED against the hardware: the spec's decision D5 (log entry 2). -/
def Config.regReset : Byte := 0x00

/-- Reset value of FL. UNVERIFIED against the hardware: the spec's decision D6 (log entry 2). -/
def Config.flReset : Byte := 0x00

/-- Reset value of pc. UNVERIFIED against the hardware: the spec's decision D7 (log entry 2). -/
def Config.pcReset : Nat := 0

/-- What every cell holds at reset before the image is loaded: "zero-initialized" (R39, R50). -/
def Config.memInit : Byte := 0x00

end Sys2Proof
end

