-- ==== Sys2Proof/Syntax.lean ====
section
/-! DEFINITION. The instructions, one constructor per row of spec/opcode_table.json
(spec/30_encoding.md R80). Every field is a whole operand byte (R73): a register operand holds an
index 0 to 255 and is checked by the handler, not by the decoder (R74). -/

namespace Sys2Proof

/-- The eleven instructions, with their operand bytes in the order `b1`, `b2` (R85). -/
inductive Instr where
  /-- `LDI Rd, imm8` (R150). -/
  | ldi (d imm8 : Byte)
  /-- `PRN Rs` (R152). -/
  | prn (s : Byte)
  /-- `ADD Ra, Rb` (R137). -/
  | add (a b : Byte)
  /-- `MUL Ra, Rb` (R138). -/
  | mul (a b : Byte)
  /-- `CMP Ra, Rb` (R139). -/
  | cmp (a b : Byte)
  /-- `PUSH Rs` (R171). -/
  | push (s : Byte)
  /-- `POP Rd` (R172). -/
  | pop (d : Byte)
  /-- `ST Ra, Rv`: `a` is the address register, `v` the value register (R151). -/
  | st (a v : Byte)
  /-- `CALL Rt` (R173). -/
  | call (t : Byte)
  /-- `RET` (R174). -/
  | ret
  /-- `HLT` (R200). -/
  | hlt
  deriving DecidableEq, Repr

end Sys2Proof
end

