-- ==== Sys2Proof/Decode.lean ====
section
/-! DEFINITION. The decoder and the encoder (spec/30_encoding.md). Decoding is by exact match of the
whole opcode byte (R77); the operand bytes follow at increasing addresses (R70). -/

namespace Sys2Proof

/-- The closed set of defined opcodes (R80, R114). -/
inductive Mnemonic where
  | ldi | prn | add | mul | cmp | push | pop | st | call | ret | hlt
  deriving DecidableEq, Repr

/-- The closed set of ALU operations; an unsupported one has no name here (spec/41_alu.md R136). -/
inductive AluOp where
  | add | multiply | compare
  deriving DecidableEq, Repr

/-- The rows of the opcode table, in its order (R80). -/
def Mnemonic.all : List Mnemonic :=
  [.ldi, .prn, .add, .mul, .cmp, .push, .pop, .st, .call, .ret, .hlt]

/-- The opcode byte of each row of R80. UNVERIFIED against the hardware: the byte values are the
spec's decision D2, not the source's (log entry 3). -/
def Mnemonic.opcode : Mnemonic → Byte
  | .ldi => 0x82
  | .prn => 0x47
  | .add => 0xA0
  | .mul => 0xA2
  | .cmp => 0xA7
  | .push => 0x45
  | .pop => 0x46
  | .st => 0x84
  | .call => 0x50
  | .ret => 0x11
  | .hlt => 0x01

/-- `n = b0[7:6]`, the number of operand bytes (R71). -/
def operandCount (b0 : Byte) : Nat := (b0.extractLsb 7 6).toNat

/-- `alu_op` of R76: the ALU operation of ADD, MUL and CMP, absent otherwise. -/
def Mnemonic.aluOp : Mnemonic → Option AluOp
  | .add => some .add
  | .mul => some .multiply
  | .cmp => some .compare
  | .ldi => none
  | .prn => none
  | .push => none
  | .pop => none
  | .st => none
  | .call => none
  | .ret => none
  | .hlt => none

/-- `sets_pc` of R76: the handler overwrites pc itself, so no generic advance follows (R106). -/
def Mnemonic.setsPc : Mnemonic → Bool
  | .call => true
  | .ret => true
  | .ldi => false
  | .prn => false
  | .add => false
  | .mul => false
  | .cmp => false
  | .push => false
  | .pop => false
  | .st => false
  | .hlt => false

/-- The decoder's output for a legal opcode byte (R76); `legal` is that there is one. -/
structure OpcodeInfo where
  mnemonic : Mnemonic
  n : Nat
  length : Nat
  aluOp : Option AluOp
  setsPc : Bool
  deriving DecidableEq, Repr

/-- The row whose opcode is the whole byte, if there is one (R77, R82). -/
def decodeOpcode (b0 : Byte) : Option Mnemonic :=
  Mnemonic.all.find? (fun m => m.opcode == b0)

/-- The record of R76, none for an illegal byte. -/
def opcodeInfo (b0 : Byte) : Option OpcodeInfo :=
  (decodeOpcode b0).map fun m =>
    { mnemonic := m, n := operandCount b0, length := 1 + operandCount b0,
      aluOp := m.aluOp, setsPc := m.setsPc }

/-- Why no instruction can be read. -/
inductive DecodeError where
  /-- There is no opcode byte (its address lies outside memory, or the bytes have run out). -/
  | noOpcode
  /-- The opcode byte is none of R80's. No operand byte is looked at (R82, R103). -/
  | illegalOpcode (b0 : Byte)
  /-- Operand byte `k` (1 or 2) of the legal opcode `b0` is not there (R104). -/
  | missingOperand (b0 : Byte) (k : Nat)
  deriving DecidableEq, Repr

/-- Operand read of a one-operand format (R104). -/
def withOperand (get : Nat → Option Byte) (b0 : Byte) (k : Byte → Instr) :
    Except DecodeError Instr :=
  match get 1 with
  | none => .error (.missingOperand b0 1)
  | some b1 => .ok (k b1)

/-- Operand read of a two-operand format, in increasing order (R104). -/
def withOperands (get : Nat → Option Byte) (b0 : Byte) (k : Byte → Byte → Instr) :
    Except DecodeError Instr :=
  match get 1 with
  | none => .error (.missingOperand b0 1)
  | some b1 =>
    match get 2 with
    | none => .error (.missingOperand b0 2)
    | some b2 => .ok (k b1 b2)

/-- The instruction of a legal opcode, its operand bytes read at offsets 1 and 2 (R73). -/
def decodeOperands (get : Nat → Option Byte) (b0 : Byte) : Mnemonic → Except DecodeError Instr
  | .ldi => withOperands get b0 .ldi
  | .prn => withOperand get b0 .prn
  | .add => withOperands get b0 .add
  | .mul => withOperands get b0 .mul
  | .cmp => withOperands get b0 .cmp
  | .push => withOperand get b0 .push
  | .pop => withOperand get b0 .pop
  | .st => withOperands get b0 .st
  | .call => withOperand get b0 .call
  | .ret => .ok .ret
  | .hlt => .ok .hlt

/-- The decoder over any source of bytes: `get k` is the byte at offset `k` from the opcode, none
where there is none. Opcode first, then legality, then only the operands it declares
(spec/40_dispatch.md R102 to R104). -/
def decodeFrom (get : Nat → Option Byte) : Except DecodeError Instr :=
  match get 0 with
  | none => .error .noOpcode
  | some b0 =>
    match decodeOpcode b0 with
    | none => .error (.illegalOpcode b0)
    | some m => decodeOperands get b0 m

/-- The table row an instruction belongs to. -/
def Instr.mnemonic : Instr → Mnemonic
  | .ldi _ _ => .ldi
  | .prn _ => .prn
  | .add _ _ => .add
  | .mul _ _ => .mul
  | .cmp _ _ => .cmp
  | .push _ => .push
  | .pop _ => .pop
  | .st _ _ => .st
  | .call _ => .call
  | .ret => .ret
  | .hlt => .hlt

/-- The length in bytes, told from the opcode byte alone: `1 + n` (R71). -/
def Instr.length (i : Instr) : Nat := 1 + operandCount i.mnemonic.opcode

/-- The decoder over a list of bytes: the instruction at its head and the bytes after it. -/
def decode (bytes : List Byte) : Except DecodeError (Instr × List Byte) :=
  match decodeFrom (fun k => bytes[k]?) with
  | .error e => .error e
  | .ok i => .ok (i, bytes.drop i.length)

/-- The bytes of an instruction, at increasing addresses (R70, R85). -/
def encode : Instr → List Byte
  | .ldi d imm8 => [Mnemonic.opcode .ldi, d, imm8]
  | .prn s => [Mnemonic.opcode .prn, s]
  | .add a b => [Mnemonic.opcode .add, a, b]
  | .mul a b => [Mnemonic.opcode .mul, a, b]
  | .cmp a b => [Mnemonic.opcode .cmp, a, b]
  | .push s => [Mnemonic.opcode .push, s]
  | .pop d => [Mnemonic.opcode .pop, d]
  | .st a v => [Mnemonic.opcode .st, a, v]
  | .call t => [Mnemonic.opcode .call, t]
  | .ret => [Mnemonic.opcode .ret]
  | .hlt => [Mnemonic.opcode .hlt]

/-- The bytes of a table word, first byte lowest: byte `k` is bits `8k+7 .. 8k` of `w`, the bits at
and above `nbits` being 0, up to the longest instruction (3 bytes, R10). -/
def tableBytes (nbits w : Nat) : List Byte :=
  [0, 1, 2].map fun k => BitVec.ofNat 8 (w % 2 ^ nbits / 2 ^ (8 * k))

/-- The instruction this decoder reads from a word of spec/opcode_table.json. -/
def decodeTableWord (nbits w : Nat) : Option Instr :=
  match decode (tableBytes nbits w) with
  | .ok (i, _) => some i
  | .error _ => none

end Sys2Proof
end

