-- ==== Sys2Proof/Machine/State.lean ====
section
/-! DEFINITION. The complete state of the core (spec/10_state.md R20), its reset (R39), and the
reasons for which a host request or a step can stop. -/

namespace Sys2Proof.Machine

/-- The fatal conditions of spec/60_exceptions.md R211. -/
inductive FaultCode where
  /-- 1: an opcode byte outside the table, raised by the decode of a step (R212). -/
  | illegalInstruction
  /-- 2: an address outside 0..255 or a register index outside 0..7 (R213). -/
  | outOfBoundsAccess
  /-- 3: kept for completeness, never raised (R218, spec/41_alu.md R136). -/
  | unsupportedALUOperation
  /-- 4: raised by the loader before any step (R214); no FaultRecord holds it. -/
  | programTooLarge
  deriving DecidableEq, Repr

/-- The numbers of R211. -/
def FaultCode.number : FaultCode → Nat
  | .illegalInstruction => 1
  | .outOfBoundsAccess => 2
  | .unsupportedALUOperation => 3
  | .programTooLarge => 4

/-- What a Faulted status carries (R36, R215): the condition, the address of the opcode byte of the
instruction that faulted, and that byte, none when the opcode fetch itself was out of range. -/
structure FaultRecord where
  code : FaultCode
  pc : Nat
  opcode : Option Byte
  deriving DecidableEq, Repr

/-- The run status (R35). -/
inductive RunStatus where
  | running
  | halted
  | faulted (r : FaultRecord)
  deriving DecidableEq, Repr

/-- Memory: (address, byte) pairs. An address that is not listed reads as `Config.memInit`. -/
abbrev Memory := List Host.Cell

/-- Every listed address exists, and no listed byte is what an unlisted address reads as. -/
def Memory.cellOk (c : Host.Cell) : Bool :=
  decide (c.1 < Config.memSize) && c.2 != Config.memInit

/-- The addresses strictly rise. -/
def Memory.rising : Memory → Bool
  | [] => true
  | c :: m => m.all (fun d => decide (c.1 < d.1)) && Memory.rising m

/-- The canonical form of memory: one list per memory contents. -/
def Memory.wf (m : Memory) : Bool := m.all Memory.cellOk && Memory.rising m

/-- The complete state of the core (R20). -/
structure State where
  /-- General registers R0..R7; `x[7]` is SP (R21, R23). -/
  x : Vector Byte 8
  /-- The flags register, layout 00000LGE (R30). -/
  fl : Byte
  /-- The program counter, 0..256 in every reachable state (R28). -/
  pc : Nat
  /-- The attached memory (spec/20_memory.md R50). -/
  mem : Memory
  /-- Running, Halted or Faulted (R35). -/
  status : RunStatus
  /-- The output events emitted so far, oldest first (R37). -/
  out : List Byte
  deriving DecidableEq, Repr

/-- The machine right after reset with the empty image loaded (R39; R245 accepts that image). DEDUCED
that the status is Running here; log entry 1 says how a program comes to run. -/
def State.reset : State where
  x := (Vector.replicate 8 Config.regReset).set 7 Config.spReset
  fl := Config.flReset
  pc := Config.pcReset
  mem := []
  status := .running
  out := []

/-- Why a host request can fail outright. No instruction and no step raises any of these: a fatal
condition of a step is a next state whose status is Faulted (R215). -/
inductive Fault where
  /-- Raised by the loader alone, for an image of more than 256 bytes (R214, spec/70 R244). Safe: it
  stops before execution starts, as the spec says. -/
  | programTooLarge
  deriving DecidableEq, Repr

/-- Why an instruction can have no meaning here. -/
inductive Refusal where
  /-- An instruction not modelled yet, by its mnemonic. Raised by an arm of exec only; no arm does so
  now. Safe. -/
  | notModelled (mnemonic : String)
  deriving DecidableEq, Repr

end Sys2Proof.Machine
end

