-- ==== Sys2Proof/Machine/Ops.lean ====
section
/-! DEFINITION. The named operations over memory and registers, raising and entering a fatal
condition, the fetch, and the retirement of an instruction (spec/00_scope.md R13,
spec/40_dispatch.md, spec/60_exceptions.md section 2). -/

namespace Sys2Proof.Machine

/-- `E(info)` of `raise E(info)` (R13). The info is diagnostic and stays out of the FaultRecord
(R215; log entry 7). -/
inductive Fatal where
  /-- The opcode byte has no handler (R212). -/
  | illegalInstruction (opcode : Byte)
  /-- An address that is none, such as -1 or 256 (R53, R213). -/
  | addrOutOfBounds (addr : Int)
  /-- An operand byte that names no register (R74, R213). -/
  | regOutOfBounds (index : Nat)
  deriving DecidableEq, Repr

/-- The kind a FaultRecord holds (R211). -/
def fatalCode : Fatal → FaultCode
  | .illegalInstruction _ => .illegalInstruction
  | .addrOutOfBounds _ => .outOfBoundsAccess
  | .regOutOfBounds _ => .outOfBoundsAccess

/-! Memory. -/

/-- The byte at an address (`MemRead(a, 1)`, R13, R41); no side effect (R57). -/
def memRead : Memory → Nat → Byte
  | [], _ => Config.memInit
  | c :: m, a => if c.1 = a then c.2 else memRead m a

/-- Drop what is listed for an address. -/
def memErase : Memory → Nat → Memory
  | [], _ => []
  | c :: m, a => if c.1 = a then memErase m a else c :: memErase m a

/-- Put a cell before the first higher address. -/
def memInsert : Memory → Nat → Byte → Memory
  | [], a, v => [(a, v)]
  | c :: m, a, v => if a < c.1 then (a, v) :: c :: m else c :: memInsert m a v

/-- Cell `a` takes the value `v` (`MemWrite(a, 1, v)`, R13, R41), keeping the canonical form. -/
def memWrite (m : Memory) (a : Nat) (v : Byte) : Memory :=
  if v = Config.memInit then memErase m a else memInsert (memErase m a) a v

/-! State accessors. -/

/-- Read general register `i` (`x[i]`, R13). -/
def State.reg (s : State) (i : Fin 8) : Byte := s.x[i]

/-- Write general register `i` (`x[i] <- v`, R13). No register is hard-wired (R26). -/
def State.setReg (s : State) (i : Fin 8) (v : Byte) : State := { s with x := s.x.set i v }

/-- SP, the same storage as `x[7]` (R13, R23). -/
def State.sp (s : State) : Byte := s.reg Config.spIndex

/-- `SP <- v` (R13). -/
def State.setSp (s : State) (v : Byte) : State := s.setReg Config.spIndex v

/-- Write FL, the whole byte (R31). -/
def State.setFl (s : State) (v : Byte) : State := { s with fl := v }

/-- `pc <- target` (R13). -/
def State.setPc (s : State) (target : Nat) : State := { s with pc := target }

/-- Read the cell at a byte address, which always exists. -/
def State.load (s : State) (a : Byte) : Byte := memRead s.mem a.toNat

/-- Write the cell at a byte address, which always exists. Program cells are writable too (R60). -/
def State.store (s : State) (a v : Byte) : State := { s with mem := memWrite s.mem a.toNat v }

/-- `Out(v)`: append one output event (R13, R37). -/
def State.emit (s : State) (v : Byte) : State := { s with out := s.out ++ [v] }

/-- `halt`: the run status becomes Halted (R13, R200). -/
def State.halt (s : State) : State := { s with status := .halted }

/-! Taking a fatal condition, the one exception mechanism (R215 to R217). -/

/-- Fault entry (R215): the status becomes Faulted with its record and nothing else changes (R216);
pc still holds the faulting instruction's address. -/
def enterFault (e : Fatal) (opcode : Option Byte) (s : State) : State :=
  { s with status := .faulted { code := fatalCode e, pc := s.pc, opcode := opcode } }

/-- There is no return from a fatal condition: the one way out of Faulted, and of Halted, is a reset,
which re-creates the whole machine (R217, spec/70_reset_and_hazards.md R240). -/
def resetCore (_ : State) : State := State.reset

/-! Fetch and retirement. -/

/-- The byte at offset `k` from pc, none where that address lies outside memory (R53). -/
def State.codeByte (s : State) (k : Nat) : Option Byte :=
  if s.pc + k < Config.memSize then some (memRead s.mem (s.pc + k)) else none

/-- Fetch, decode and operand read (spec/40_dispatch.md R102 to R104). -/
def fetch (s : State) : Except DecodeError Instr := decodeFrom s.codeByte

/-- The condition a failed fetch raises, and the opcode byte its record holds (R215, R219). -/
def fetchFault (s : State) : DecodeError → State
  | .noOpcode => enterFault (.addrOutOfBounds s.pc) none s
  | .illegalOpcode b0 => enterFault (.illegalInstruction b0) (some b0) s
  | .missingOperand b0 k => enterFault (.addrOutOfBounds (s.pc + k)) (some b0) s

/-- The generic advance (R106): `pc + 1 + n` from the address the instruction was fetched at, not for
CALL and RET. -/
def advance (m : Mnemonic) (s t : State) : State :=
  if m.setsPc then t else t.setPc (s.pc + 1 + operandCount m.opcode)

/-- End of a step (R108): a handler that raised changes nothing but the status (R216); one that
completed is followed by the generic advance. `s` is the state before the handler. -/
def retire (m : Mnemonic) (s : State) :
    Except Fatal State → Host.Outcome State Fault Refusal
  | .error e => .next (enterFault e (some m.opcode) s)
  | .ok t => .next (advance m s t)

end Sys2Proof.Machine
end

