-- ==== Sys2Proof/Machine/Operands.lean ====
section
/-! DEFINITION. The operand forms (spec/30_encoding.md section 2): a register operand is checked
first (spec/40_dispatch.md R105); the immediate of LDI is its whole byte (R75). And the stack slots
that PUSH, POP, CALL and RET address implicitly (spec/43_stack_subroutine.md R170). -/

namespace Sys2Proof.Machine

/-- `check_reg(i)` (R13, R74): the register an operand byte names, no masking to 3 bits. -/
def checkReg (b : Byte) : Except Fatal (Fin 8) :=
  if h : b.toNat < 8 then .ok ⟨b.toNat, h⟩ else .error (.regOutOfBounds b.toNat)

/-- The immediate of LDI, `zext_8(b2)` (R75). -/
def immediate (b : Byte) : Byte := b

/-- The cell a push writes: SP - 1 (R170). -/
def pushAddr (s : State) : Byte := s.sp - 1

/-- `SP <- SP - 1`, raising when SP - 1 is no address (R170). -/
def spDecrement (s : State) : Except Fatal State :=
  if s.sp = 0 then .error (.addrOutOfBounds (-1)) else .ok (s.setSp (pushAddr s))

/-- `SP <- SP + 1`, raising when SP + 1 does not fit SP (R170). -/
def spIncrement (s : State) : Except Fatal State :=
  if s.sp = 255 then .error (.addrOutOfBounds 256) else .ok (s.setSp (s.sp + 1))

/-- `stack_push(v)` (R170), where `v` is read from the state after the decrement (R171, D13). -/
def stackPush (v : State → Byte) (s : State) : Except Fatal State := do
  let t ← spDecrement s
  return t.store (pushAddr s) (v t)

/-- The value a pop reads: the cell SP addresses (R170). -/
def stackTop (s : State) : Byte := s.load s.sp

/-- The return address CALL pushes, `pc + 2`, which must fit a cell (R173). -/
def returnAddress (s : State) : Except Fatal Byte :=
  if s.pc + 2 < Config.memSize then .ok (BitVec.ofNat 8 (s.pc + 2))
  else .error (.addrOutOfBounds (s.pc + 2))

end Sys2Proof.Machine
end

