-- ==== Sys2Proof/Machine/Flags.lean ====
section
/-! DEFINITION. The ALU (spec/41_alu.md section 1): its two arithmetic results, its flag
computation, and the one operation that applies them. -/

namespace Sys2Proof.Machine

/-- Add: `(x[a] + x[b]) mod 256`; overflow is not recorded (R132). -/
def aluSum (a b : Byte) : Byte := BitVec.ofNat 8 ((a.toNat + b.toNat) % 256)

/-- Multiply: the low 8 bits of the 16-bit unsigned product (R133). -/
def aluProduct (a b : Byte) : Byte := BitVec.ofNat 8 (a.toNat * b.toNat % 256)

/-- Compare: the whole FL byte, 00000LGE, for an unsigned comparison (R134, R30). -/
def compareFlags (a b : Byte) : Byte :=
  if a.toNat = b.toNat then 0b00000001
  else if a.toNat > b.toNat then 0b00000010
  else 0b00000100

/-- `apply(op, a, b)` (R130): writes `x[a]` for Add and Multiply, FL for Compare, and nothing through
its b side (R131). ADD and MUL write no flag (R140). -/
def aluApply (op : AluOp) (a b : Fin 8) (s : State) : State :=
  match op with
  | .add => s.setReg a (aluSum (s.reg a) (s.reg b))
  | .multiply => s.setReg a (aluProduct (s.reg a) (s.reg b))
  | .compare => s.setFl (compareFlags (s.reg a) (s.reg b))

/-- The common shape of ADD, MUL and CMP: check both registers, a first, then apply (R137 to R139). -/
def aluHandler (op : AluOp) (a b : Byte) (s : State) : Except Fatal State := do
  let ra ← checkReg a
  let rb ← checkReg b
  return aluApply op ra rb s

end Sys2Proof.Machine
end

