-- ==== Sys2Proof/Machine/Alu.lean ====
section
/-! DEFINITION. ADD, MUL and CMP (spec/41_alu.md sections 2 to 4). -/

namespace Sys2Proof.Machine

/-- ADD Ra, Rb (R137). -/
def execAdd (a b : Byte) (s : State) : Host.Outcome State Fault Refusal :=
  retire .add s (aluHandler .add a b s)

/-- MUL Ra, Rb (R138). -/
def execMul (a b : Byte) (s : State) : Host.Outcome State Fault Refusal :=
  retire .mul s (aluHandler .multiply a b s)

/-- CMP Ra, Rb (R139). -/
def execCmp (a b : Byte) (s : State) : Host.Outcome State Fault Refusal :=
  retire .cmp s (aluHandler .compare a b s)

end Sys2Proof.Machine
end

