-- ==== Sys2Proof/Machine/Halt.lean ====
section
/-! DEFINITION. HLT (spec/44_halt.md). -/

namespace Sys2Proof.Machine

/-- HLT (R200): the status becomes Halted and the generic advance follows (R107). -/
def execHlt (s : State) : Host.Outcome State Fault Refusal :=
  retire .hlt s (.ok s.halt)

end Sys2Proof.Machine
end

