-- ==== Sys2Proof/Machine/LoadStore.lean ====
section
/-! DEFINITION. LDI, ST and PRN (spec/42_load_store_output.md). -/

namespace Sys2Proof.Machine

/-- LDI Rd, imm8 (R150). -/
def execLdi (d imm8 : Byte) (s : State) : Host.Outcome State Fault Refusal :=
  retire .ldi s do
    let rd ← checkReg d
    return s.setReg rd (immediate imm8)

/-- PRN Rs (R152). -/
def execPrn (src : Byte) (s : State) : Host.Outcome State Fault Refusal :=
  retire .prn s do
    let rs ← checkReg src
    return s.emit (s.reg rs)

/-- ST Ra, Rv (R151): any address, the program region included (R60). -/
def execSt (a v : Byte) (s : State) : Host.Outcome State Fault Refusal :=
  retire .st s do
    let ra ← checkReg a
    let rv ← checkReg v
    return s.store (s.reg ra) (s.reg rv)

end Sys2Proof.Machine
end

