-- ==== Sys2Proof/Machine/Stack.lean ====
section
/-! DEFINITION. PUSH, POP, CALL and RET (spec/43_stack_subroutine.md). -/

namespace Sys2Proof.Machine

/-- PUSH Rs (R171): SP is decremented before `x[s]` is read, so PUSH R7 stores the decremented SP. -/
def execPush (src : Byte) (s : State) : Host.Outcome State Fault Refusal :=
  retire .push s do
    let rs ← checkReg src
    stackPush (fun t => t.reg rs) s

/-- POP Rd (R172): `x[d]` is written before SP is incremented, so POP R7 leaves the popped value
plus one in SP. -/
def execPop (d : Byte) (s : State) : Host.Outcome State Fault Refusal :=
  retire .pop s do
    let rd ← checkReg d
    spIncrement (s.setReg rd (stackTop s))

/-- CALL Rt (R173): the register, SP and the return address are checked in that order; the target is
read after the push. -/
def execCall (t : Byte) (s : State) : Host.Outcome State Fault Refusal :=
  retire .call s do
    let rt ← checkReg t
    let _ ← spDecrement s
    let ret ← returnAddress s
    let u ← stackPush (fun _ => ret) s
    return u.setPc (u.reg rt).toNat

/-- RET (R174): SP is incremented once. -/
def execRet (s : State) : Host.Outcome State Fault Refusal :=
  retire .ret s do
    let u ← spIncrement s
    return u.setPc (stackTop s).toNat

end Sys2Proof.Machine
end

