-- ==== Sys2Proof/Machine/Dispatch.lean ====
section
/-! DEFINITION. The closed dispatch table (spec/40_dispatch.md R105, R114): one meaning per
instruction. -/

namespace Sys2Proof.Machine

def exec (i : Instr) (s : State) : Host.Outcome State Fault Refusal :=
  match i with
  | .ldi d imm8 => Sys2Proof.Machine.execLdi d imm8 s
  | .prn src => Sys2Proof.Machine.execPrn src s
  | .add a b => Sys2Proof.Machine.execAdd a b s
  | .mul a b => Sys2Proof.Machine.execMul a b s
  | .cmp a b => Sys2Proof.Machine.execCmp a b s
  | .push src => Sys2Proof.Machine.execPush src s
  | .pop d => Sys2Proof.Machine.execPop d s
  | .st a v => Sys2Proof.Machine.execSt a v s
  | .call t => Sys2Proof.Machine.execCall t s
  | .ret => Sys2Proof.Machine.execRet s
  | .hlt => Sys2Proof.Machine.execHlt s

end Sys2Proof.Machine
end

