-- ==== Sys2Proof/Machine/Loader.lean ====
section
/-! DEFINITION. The host's side of the core's ports: the loader and its text image format
(spec/70_reset_and_hazards.md section 2, spec/30_encoding.md section 6), the rendering of output
(spec/42_load_store_output.md R154), and what the status port shows (spec/10_state.md R43). No step
uses any of it. -/

namespace Sys2Proof.Machine

/-- Write bytes at increasing addresses, one per cell; a byte whose address does not exist is not
written. -/
def writeBytes : Nat → List Byte → Memory → Memory
  | _, [], m => m
  | a, b :: bs, m => writeBytes (a + 1) bs (if a < Config.memSize then memWrite m a b else m)

/-- The loader (R243, R244): image byte `k` goes to cell `k` and the status is Running; an image that
exceeds memory is refused and writes nothing. No opcode is checked (R245). -/
def loadImage (image : List Byte) (s : State) : Host.Outcome State Fault Refusal :=
  if image.length > Config.memSize then .fault .programTooLarge
  else .next { s with mem := writeBytes 0 image s.mem, status := .running }

/-- Reset, then load: how a run begins (R240, R241). -/
def boot (image : List Byte) : Host.Outcome State Fault Refusal := loadImage image State.reset

/-- A binary digit character. -/
def isDigit (c : Char) : Bool := c == '0' || c == '1'

/-- The digit characters of a line before the first comment marker (R88). -/
def lineDigits (line : List Char) : List Char := (line.takeWhile (fun c => c != '#')).filter isDigit

/-- Digits as an unsigned number, the most significant first (R90). -/
def digitsValue (ds : List Char) : Nat := ds.foldl (fun n c => 2 * n + (if c = '1' then 1 else 0)) 0

/-- The byte a line of the text image yields, if exactly eight digits were collected (R89, R91). -/
def lineByte (line : List Char) : Option Byte :=
  if (lineDigits line).length = 8 then some (BitVec.ofNat 8 (digitsValue (lineDigits line))) else none

/-- The image bytes: those of the yielding lines, in line order (R91). -/
def imageOfLines (lines : List (List Char)) : List Byte := lines.filterMap lineByte

/-- The character of one decimal digit. -/
def decimalDigit (n : Nat) : Char := Char.ofNat (48 + n)

/-- The host's rendering of an output event: its decimal digits, no leading zeros or sign (R154). -/
def renderByte (v : Byte) : List Char :=
  let n := v.toNat
  if n < 10 then [decimalDigit n]
  else if n < 100 then [decimalDigit (n / 10), decimalDigit (n % 10)]
  else [decimalDigit (n / 100), decimalDigit (n / 10 % 10), decimalDigit (n % 10)]

/-- The host's text stream, one line per event; the line-end character is the host's (N24). -/
def outputLines (s : State) : List (List Char) := s.out.map renderByte

/-- What the host may inspect: the whole state once the core is Halted or Faulted (R43). -/
def inspect (s : State) : Option State :=
  match s.status with
  | .running => none
  | .halted => some s
  | .faulted _ => some s

end Sys2Proof.Machine
end

