-- ==== Sys2Proof/Machine/Step.lean ====
section
/-! DEFINITION. The step of the core (spec/40_dispatch.md R108). -/

namespace Sys2Proof.Machine

/-- One step (R108): fetch, decode and operand read, then the instruction. A step requested while the
status is not Running does nothing (spec/10_state.md R44). -/
def step (s : State) : Host.Outcome State Fault Refusal :=
  match s.status with
  | .halted => .next s
  | .faulted _ => .next s
  | .running =>
    match fetch s with
    | .error e => .next (fetchFault s e)
    | .ok i => exec i s

/-- `s` with a word of the opcode table stored at pc, where the next step fetches, and Running, which
a step requires (R101); log entry 12. -/
def State.withFetchWord (s : State) (nbits w : Nat) : State :=
  { s with mem := writeBytes s.pc (tableBytes nbits w) s.mem, status := .running }

end Sys2Proof.Machine
end

