-- ==== Sys2Proof/WellFormed.lean ====
section
/-! DEFINITION. Which instructions are well formed: every register operand names a register
(spec/10_state.md R22, spec/30_encoding.md R74). An ill-formed instruction still has an encoding and
a meaning: its handler raises OutOfBoundsAccess. -/

namespace Sys2Proof

/-- The operand byte names one of R0 to R7 (R74). -/
def namesRegister (b : Byte) : Bool := decide (b.toNat < Config.regCount)

/-- The register operands of an instruction, in the order in which they are checked (R219); the
immediate of LDI is not one. -/
def Instr.regOperands : Instr → List Byte
  | .ldi d _ => [d]
  | .prn s => [s]
  | .add a b => [a, b]
  | .mul a b => [a, b]
  | .cmp a b => [a, b]
  | .push s => [s]
  | .pop d => [d]
  | .st a v => [a, v]
  | .call t => [t]
  | .ret => []
  | .hlt => []

/-- Every register operand names a register. -/
def Instr.wellFormed (i : Instr) : Bool := i.regOperands.all namesRegister

end Sys2Proof
end

