-- ==== Sys2Proof/Safety.lean ====
section
/-! DEFINITION. The terms in which claims about runs are stated: the state an outcome leaves, a run
that has not faulted, and what holds in every reachable state. -/

namespace Sys2Proof.Machine

/-- The next state an outcome answers, if it answers one. -/
def nextState : Host.Outcome State Fault Refusal → Option State
  | .next s => some s
  | .fault _ => none
  | .refused _ => none

/-- The run has met no fatal condition (spec/10_state.md R35). -/
def State.unfaulted (s : State) : Bool :=
  match s.status with
  | .running => true
  | .halted => true
  | .faulted _ => false

/-- pc holds 0..256 (R28). -/
def State.pcInRange (s : State) : Prop := s.pc ≤ 256

/-- FL holds one of the values R33 lists. -/
def State.flOneOfFour (s : State) : Prop := s.fl = 0x00 ∨ s.fl = 0x01 ∨ s.fl = 0x02 ∨ s.fl = 0x04

/-- What a stopped status says of the state it stopped in (spec/60_exceptions.md R212, R215,
spec/44_halt.md R200): a Halted core stands just after a HLT byte; a FaultRecord holds pc, the opcode
byte pc addresses (none exactly when pc addresses no cell), and code 1 exactly for an illegal byte,
code 2 for any other. -/
def State.stopIsTruthful (s : State) : Prop :=
  match s.status with
  | .running => True
  | .halted => 0 < s.pc ∧ memRead s.mem (s.pc - 1) = Mnemonic.opcode .hlt
  | .faulted r =>
    r.pc = s.pc ∧ r.opcode = s.codeByte 0 ∧
      match r.opcode with
      | none => r.code = .outOfBoundsAccess
      | some b0 => r.code = if decodeOpcode b0 = none then .illegalInstruction else .outOfBoundsAccess

/-- The numbers of the registers an instruction may write (the table of spec/10_state.md R27). -/
def writtenRegisters : Instr → List Nat
  | .ldi d _ => [d.toNat]
  | .add a _ => [a.toNat]
  | .mul a _ => [a.toNat]
  | .pop d => [d.toNat, 7]
  | .push _ => [7]
  | .call _ => [7]
  | .ret => [7]
  | .cmp _ _ => []
  | .st _ _ => []
  | .prn _ => []
  | .hlt => []

/-- The state a faulting instruction or fetch leaves: the record in the status, nothing else changed
(R215, R216). -/
def faultedAt (s : State) (code : FaultCode) (opcode : Option Byte) : State :=
  { s with status := .faulted { code := code, pc := s.pc, opcode := opcode } }

/-- What every fetch from memory `m` makes of byte `b` at address `a` (spec/20_memory.md R65): as an
operand it is the byte read at its offset from pc, and as an opcode it is what the step of a Running
core decodes, runs, or raises for. -/
def FetchSees (m : Memory) (a : Nat) (b : Byte) : Prop :=
  ∀ q : State, q.mem = m →
    (∀ k : Nat, q.pc + k = a → q.codeByte k = some b) ∧
    (q.status = .running → q.pc = a →
      match decodeOpcode b with
      | none => step q = .next (faultedAt q .illegalInstruction (some b))
      | some row =>
        if q.pc + operandCount b < 256 then ∃ i : Instr, i.mnemonic = row ∧ step q = exec i q
        else step q = .next (faultedAt q .outOfBoundsAccess (some b)))

/-- `k` executions of `PUSH Rs` in a row, none if one answers no next state. -/
def pushTimes (src : Byte) : Nat → State → Option State
  | 0, s => some s
  | k + 1, s => (nextState (exec (.push src) s)).bind (pushTimes src k)

end Sys2Proof.Machine
end

