-- ==== Sys2Proof/Certificates/Slice0/Obligations.lean ====
section
/-! DEFINITION. The statements for the provers. Each docstring names the part of spec/ it formalises;
where the rule carries a decision tag of spec/92_eei_decisions.md, it names the decision too. -/

open Sys2Proof Sys2Proof.Machine

/-! Encoding. -/

/-- Every instruction, at every operand byte, decodes from its own encoding, whatever bytes follow
(spec/30_encoding.md sections 1 and 3). Rests on the byte values of decision D2 only in that they are
distinct and carry their operand counts. -/
def Obligations.DecodeEncodeRoundTrip : Prop :=
  ∀ (i : Instr) (rest : List Byte), decode (encode i ++ rest) = .ok (i, rest)

/-- The other direction: bytes that decode are exactly the encoding of what they decode to, followed by
the rest (spec/30_encoding.md section 3: each legal byte has one meaning). -/
def Obligations.DecodedBytesReencode : Prop :=
  ∀ (bytes : List Byte) (i : Instr) (rest : List Byte),
    decode bytes = .ok (i, rest) → encode i ++ rest = bytes

/-- Words written out from the spec's encodings decode to the instruction they stand for
(spec/30_encoding.md R80, R85, byte values of decision D2; spec/95_test_vectors.md P1 to P3). -/
def Obligations.SpecWordsDecode : Prop :=
  decode [0x82, 0x00, 0x08] = .ok (.ldi 0 8, []) ∧
  decode [0x47, 0x07] = .ok (.prn 7, []) ∧
  decode [0xA0, 0x00, 0x01] = .ok (.add 0 1, []) ∧
  decode [0xA2, 0x03, 0x02] = .ok (.mul 3 2, []) ∧
  decode [0xA7, 0x00, 0x04] = .ok (.cmp 0 4, []) ∧
  decode [0x45, 0x00] = .ok (.push 0, []) ∧
  decode [0x46, 0x02] = .ok (.pop 2, []) ∧
  decode [0x84, 0x03, 0x02] = .ok (.st 3 2, []) ∧
  decode [0x50, 0x01] = .ok (.call 1, []) ∧
  decode [0x11] = .ok (.ret, []) ∧
  decode [0x01] = .ok (.hlt, [])

/-- R71: the operand count is the top two bits of the opcode byte, read as an unsigned number, and the
instruction's length, one more, is told from that byte alone. -/
def Obligations.LengthIsToldByFirstByte : Prop :=
  ∀ (b0 : Byte) (bs : List Byte) (i : Instr) (rest : List Byte),
    decode (b0 :: bs) = .ok (i, rest) →
      operandCount b0 = b0.toNat / 64 ∧
      (encode i).length = 1 + b0.toNat / 64 ∧
      rest = bs.drop (b0.toNat / 64)

/-- R72: no instruction has three operand bytes, so none is 4 bytes long, and every opcode byte whose
bits 7:6 are 11 is illegal, whatever follows it. -/
def Obligations.ThreeOperandOpcodesAreIllegal : Prop :=
  (∀ i : Instr, operandCount i.mnemonic.opcode ≠ 3 ∧ (encode i).length ≤ 3) ∧
  ∀ (b0 : Byte) (bs : List Byte),
    b0.toNat / 64 = 3 → decode (b0 :: bs) = .error (.illegalOpcode b0)

/-- Exactly eleven opcode bytes are legal (spec/30_encoding.md section 3, byte values of
decision D2; the count is an inference the spec marks as its own). -/
def Obligations.OpcodeMapIsExact : Prop :=
  ∀ b0 : Byte, (decodeOpcode b0).isSome = true ↔
    b0 ∈ ([0x01, 0x11, 0x45, 0x46, 0x47, 0x50, 0x82, 0x84, 0xA0, 0xA2, 0xA7] : List Byte)

/-- The decoder's output record on legal and illegal bytes (spec/95_test_vectors.md section 2.1, byte
values of decision D2, record of decision D26). -/
def Obligations.DecoderOutputTable : Prop :=
  opcodeInfo 0x82 = some ⟨.ldi, 2, 3, none, false⟩ ∧
  opcodeInfo 0x47 = some ⟨.prn, 1, 2, none, false⟩ ∧
  opcodeInfo 0xA0 = some ⟨.add, 2, 3, some .add, false⟩ ∧
  opcodeInfo 0xA2 = some ⟨.mul, 2, 3, some .multiply, false⟩ ∧
  opcodeInfo 0xA7 = some ⟨.cmp, 2, 3, some .compare, false⟩ ∧
  opcodeInfo 0x45 = some ⟨.push, 1, 2, none, false⟩ ∧
  opcodeInfo 0x46 = some ⟨.pop, 1, 2, none, false⟩ ∧
  opcodeInfo 0x84 = some ⟨.st, 2, 3, none, false⟩ ∧
  opcodeInfo 0x50 = some ⟨.call, 1, 2, none, true⟩ ∧
  opcodeInfo 0x11 = some ⟨.ret, 0, 1, none, true⟩ ∧
  opcodeInfo 0x01 = some ⟨.hlt, 0, 1, none, false⟩ ∧
  opcodeInfo 0x00 = none ∧ opcodeInfo 0x54 = none ∧ opcodeInfo 0x55 = none ∧
  opcodeInfo 0x56 = none ∧ opcodeInfo 0xA1 = none ∧ opcodeInfo 0x83 = none ∧
  opcodeInfo 0xC0 = none ∧ opcodeInfo 0xFF = none

/-! Reset and load. -/

/-- What reset leaves (spec/10_state.md section 7): SP and the zeroed memory are the source's values,
the other registers, FL, pc and the status are the spec's decisions D5, D6, D7 and D24 (log entries 1
and 2). -/
def Obligations.ResetValues : Prop :=
  (∀ r : Fin 8, r ≠ 7 → State.reset.reg r = 0x00) ∧
  State.reset.reg 7 = 0xF4 ∧
  State.reset.fl = 0x00 ∧
  State.reset.pc = 0 ∧
  (∀ a : Nat, memRead State.reset.mem a = 0x00) ∧
  State.reset.status = .running ∧
  State.reset.out = []

/-- The invariants the steps keep hold at reset (spec/10_state.md sections 3, 4 and 6). The canonical form
of memory is the model's own (log entry 9, DESIGN CHOICE), and the stopped-status invariant holds
because the model's reset is Running (log entry 1, DEDUCED). -/
def Obligations.ResetMeetsInvariants : Prop :=
  State.reset.mem.wf = true ∧ State.reset.pcInRange ∧ State.reset.flOneOfFour ∧
    State.reset.stopIsTruthful

/-- R243: the loader writes the image from address 0, in order, one byte per cell, and no other cell. -/
def Obligations.LoaderWritesImage : Prop :=
  ∀ (image : List Byte) (s : State), image.length ≤ 256 →
    ∃ t, loadImage image s = .next t ∧
      (∀ (k : Nat) (h : k < image.length), memRead t.mem k = image[k]) ∧
      ∀ k : Nat, image.length ≤ k → memRead t.mem k = memRead s.mem k

/-- An image of more than 256 bytes is refused by the loader, whatever the state, and one of exactly 256
bytes is accepted (spec/60_exceptions.md section 1, spec/70_reset_and_hazards.md section 2). That the
refusal is a fault of the host's request with no state is the model's choice (log entry 11, DESIGN
CHOICE); that an accepted image leaves the core Running is decision D24. -/
def Obligations.OversizeImageIsRefused : Prop :=
  (∀ (image : List Byte) (s : State),
    256 < image.length → loadImage image s = .fault .programTooLarge) ∧
  ∀ (image : List Byte) (s : State),
    image.length = 256 → ∃ t, loadImage image s = .next t ∧ t.status = .running

/-- A run begins Running at address 0 with the reset registers, flags and output
(spec/70_reset_and_hazards.md section 1, decisions D7 and D24; log entry 1). -/
def Obligations.BootStartsRunningAtZero : Prop :=
  ∀ image : List Byte, image.length ≤ 256 →
    ∃ t, boot image = .next t ∧ t = { State.reset with mem := t.mem } ∧
      t.status = .running ∧ t.pc = 0

/-- R88 to R90: a line's digits are the characters 0 and 1 before the first comment marker; it yields a
byte exactly when eight were collected, and the first collected digit is bit 7, the last bit 0. -/
def Obligations.ImageLineYieldsByte : Prop :=
  (∀ before after : List Char, '#' ∉ before →
    lineDigits (before ++ '#' :: after) = before.filter (fun c => c == '0' || c == '1') ∧
    lineDigits before = before.filter (fun c => c == '0' || c == '1')) ∧
  (∀ line : List Char, (lineByte line).isSome = true ↔ (lineDigits line).length = 8) ∧
  ∀ (line : List Char) (b : Byte), lineByte line = some b →
    ∀ k : Nat, k < 8 → b.getLsbD (7 - k) = decide ((lineDigits line)[k]? = some '1')

/-- The host renders every output event as decimal digits that read back as its value: at least one, no
leading zero in any rendering of more than one, and exactly the one digit 0 for the value 0
(spec/42_load_store_output.md, PRN and last rule, decision D18). -/
def Obligations.OutputRendersDecimal : Prop :=
  renderByte 0 = ['0'] ∧
  ∀ v : Byte,
    (renderByte v).foldl (fun n c => 10 * n + (c.toNat - 48)) 0 = v.toNat ∧
    (∀ c ∈ renderByte v, 48 ≤ c.toNat ∧ c.toNat ≤ 57) ∧
    renderByte v ≠ [] ∧
    (1 < (renderByte v).length → (renderByte v).head? ≠ some '0')

/-! The step. -/

/-- When the bytes at pc are the encoding of an instruction, the step is that instruction's meaning and
nothing more; this holds for every instruction, well formed or not, and wherever its bytes fit
(spec/40_dispatch.md section 1). -/
def Obligations.StepRunsDecodedInstruction : Prop :=
  ∀ (s : State) (i : Instr), s.status = .running →
    (∀ (k : Nat) (h : k < (encode i).length),
      s.pc + k < 256 ∧ memRead s.mem (s.pc + k) = (encode i)[k]) →
    step s = exec i s

/-- A fetch past the last cell raises OutOfBoundsAccess, with no opcode in the record
(spec/40_dispatch.md section 1, Fetch; decision D8). -/
def Obligations.FetchPastMemoryFaults : Prop :=
  ∀ s : State, s.status = .running → 255 < s.pc →
    step s = .next (faultedAt s .outOfBoundsAccess none)

/-- R212: an opcode byte outside the opcode table, and 245 bytes are, raises IllegalInstruction; the
FaultRecord holds the byte and its address, whatever operand bytes follow or fail to, and the machine
performs no further cycles. -/
def Obligations.IllegalOpcodeFaults : Prop :=
  ((List.range 256).filter fun n =>
    !(Mnemonic.all.map Mnemonic.opcode).contains (BitVec.ofNat 8 n)).length = 245 ∧
  ∀ s : State, s.status = .running → s.pc < 256 →
    memRead s.mem s.pc ∉ Mnemonic.all.map Mnemonic.opcode →
    step s = .next (faultedAt s .illegalInstruction (some (memRead s.mem s.pc))) ∧
    step (faultedAt s .illegalInstruction (some (memRead s.mem s.pc))) =
      .next (faultedAt s .illegalInstruction (some (memRead s.mem s.pc)))

/-- A legal opcode whose last operand byte lies past address 255 raises OutOfBoundsAccess at its operand
read, before any register check (spec/40_dispatch.md section 1, Operand read; spec/60_exceptions.md
section 3; decisions D12 and D15). -/
def Obligations.MissingOperandFaults : Prop :=
  ∀ (s : State) (m : Mnemonic), s.status = .running → s.pc < 256 →
    decodeOpcode (memRead s.mem s.pc) = some m → 255 < s.pc + (memRead s.mem s.pc).toNat / 64 →
    step s = .next (faultedAt s .outOfBoundsAccess (some (memRead s.mem s.pc)))

/-- A step requested while the core is Halted or Faulted changes nothing (spec/10_state.md section 8,
Control port, decision D21). -/
def Obligations.StoppedCoreTakesNoStep : Prop :=
  ∀ s : State, s.status ≠ .running → step s = .next s

/-- A step that ends Faulted has changed nothing but the status (spec/60_exceptions.md section 2,
decision D11). -/
def Obligations.FaultsAreAllOrNothing : Prop :=
  ∀ (s t : State) (r : FaultRecord), s.status = .running → step s = .next t →
    t.status = .faulted r → t = { s with status := .faulted r }

/-- Every instruction on every state, and every step, answers a next state (spec/40_dispatch.md
section 1: a step either completes or raises). That a fatal condition and a step asked of a stopped
core are next states, and that exec does not look at the status, is the model's choice (log entry 13,
DESIGN CHOICE). -/
def Obligations.EveryStepAnswers : Prop :=
  (∀ (i : Instr) (s : State), ∃ t, exec i s = .next t) ∧ ∀ s : State, ∃ t, step s = .next t

/-! Where each instruction completes, and what it then leaves. -/

/-- LDI writes its immediate byte to the register and advances by 3
(spec/42_load_store_output.md, LDI). -/
def Obligations.LdiLoadsImmediate : Prop :=
  ∀ (s : State) (d imm8 : Byte) (_ : d.toNat < 8),
    exec (.ldi d imm8) s = .next { s with x := s.x.set d.toNat imm8, pc := s.pc + 3 }

/-- PRN appends the register's value to the output and advances by 2
(spec/42_load_store_output.md, PRN; decision D18). -/
def Obligations.PrnEmitsRegister : Prop :=
  ∀ (s : State) (src : Byte) (_ : src.toNat < 8),
    exec (.prn src) s = .next { s with out := s.out ++ [s.x[src.toNat]], pc := s.pc + 2 }

/-- ADD writes the sum modulo 256 to its first register, flags untouched, and advances by 3; its two
operands may name one register (spec/41_alu.md section 2; decisions D1, D4 and D13). -/
def Obligations.AddWritesSum : Prop :=
  ∀ (s : State) (a b : Byte) (_ : a.toNat < 8) (_ : b.toNat < 8),
    ∃ sum : Byte, sum.toNat = (s.x[a.toNat].toNat + s.x[b.toNat].toNat) % 256 ∧
      exec (.add a b) s = .next { s with x := s.x.set a.toNat sum, pc := s.pc + 3 }

/-- MUL writes the low 8 bits of the unsigned product to its first register, flags untouched, and
advances by 3 (spec/41_alu.md section 3; decisions D1, D4 and D13). -/
def Obligations.MulWritesLowProduct : Prop :=
  ∀ (s : State) (a b : Byte) (_ : a.toNat < 8) (_ : b.toNat < 8),
    ∃ product : Byte, product.toNat = s.x[a.toNat].toNat * s.x[b.toNat].toNat % 256 ∧
      exec (.mul a b) s = .next { s with x := s.x.set a.toNat product, pc := s.pc + 3 }

/-- R134: CMP writes the whole FL byte: Equal (bit 0), Greater (bit 1) or Less (bit 2) of the unsigned
values, exactly one; the rest of the state but pc, which advances by 3, is unchanged. -/
def Obligations.CmpSetsExactlyOneFlag : Prop :=
  ∀ (s : State) (a b : Byte) (_ : a.toNat < 8) (_ : b.toNat < 8),
    ∃ fl : Byte, exec (.cmp a b) s = .next { s with fl := fl, pc := s.pc + 3 } ∧
      (fl = 0b00000001 ↔ s.x[a.toNat].toNat = s.x[b.toNat].toNat) ∧
      (fl = 0b00000010 ↔ s.x[a.toNat].toNat > s.x[b.toNat].toNat) ∧
      (fl = 0b00000100 ↔ s.x[a.toNat].toNat < s.x[b.toNat].toNat)

/-- ST writes the value register's byte to the cell the address register names, every other cell kept,
and advances by 3 (spec/42_load_store_output.md, ST; decision D19). -/
def Obligations.StWritesCell : Prop :=
  ∀ (s : State) (a v : Byte) (_ : a.toNat < 8) (_ : v.toNat < 8),
    ∃ t, exec (.st a v) s = .next t ∧ t = { s with mem := t.mem, pc := s.pc + 3 } ∧
      ∀ k : Nat, memRead t.mem k =
        if k = s.x[a.toNat].toNat then s.x[v.toNat] else memRead s.mem k

/-- PUSH decrements SP, then writes the register, read after the decrement, to the cell SP addresses;
every other cell is kept and pc advances by 2 (spec/43_stack_subroutine.md, PUSH; decisions D9, D13). -/
def Obligations.PushWritesBelowStack : Prop :=
  ∀ (s : State) (src : Byte) (_ : src.toNat < 8), s.x[7] ≠ 0 →
    ∃ t, exec (.push src) s = .next t ∧
      t = { s with x := s.x.set 7 (s.x[7] - 1), mem := t.mem, pc := s.pc + 2 } ∧
      ∀ k : Nat, memRead t.mem k =
        if k = s.x[7].toNat - 1 then (s.x.set 7 (s.x[7] - 1))[src.toNat] else memRead s.mem k

/-- POP writes the cell SP addresses to the register and then increments SP: for R7 itself SP becomes
the popped value plus one; memory is kept and pc advances by 2 (spec/43_stack_subroutine.md, POP;
decisions D9, D13 and D25). -/
def Obligations.PopReadsTopOfStack : Prop :=
  (∀ (s : State) (d : Byte) (_ : d.toNat < 8), d.toNat ≠ 7 → s.x[7] ≠ 255 →
    exec (.pop d) s = .next { s with
      x := (s.x.set d.toNat (memRead s.mem s.x[7].toNat)).set 7 (s.x[7] + 1), pc := s.pc + 2 }) ∧
  ∀ s : State, memRead s.mem s.x[7].toNat ≠ 255 →
    exec (.pop 7) s = .next { s with
      x := s.x.set 7 (memRead s.mem s.x[7].toNat + 1), pc := s.pc + 2 }

/-- CALL pushes the address of the instruction after it and jumps to the register's value, read after
the push, with no generic advance (spec/43_stack_subroutine.md, CALL; decisions D9, D10 and D13). -/
def Obligations.CallPushesReturnAddress : Prop :=
  ∀ (s : State) (target : Byte) (_ : target.toNat < 8), s.x[7] ≠ 0 → s.pc + 2 < 256 →
    ∃ t, exec (.call target) s = .next t ∧
      t = { s with x := s.x.set 7 (s.x[7] - 1), mem := t.mem,
                   pc := (s.x.set 7 (s.x[7] - 1))[target.toNat].toNat } ∧
      ∀ k : Nat, (memRead t.mem k).toNat =
        if k = s.x[7].toNat - 1 then s.pc + 2 else (memRead s.mem k).toNat

/-- RET sets pc to the cell SP addresses and increments SP once, with no generic advance
(spec/43_stack_subroutine.md, RET; decisions D9, D23 and D25). -/
def Obligations.RetPopsPc : Prop :=
  ∀ s : State, s.x[7] ≠ 255 →
    exec .ret s = .next { s with
      x := s.x.set 7 (s.x[7] + 1), pc := (memRead s.mem s.x[7].toNat).toNat }

/-- HLT makes the status Halted and leaves pc one past itself; the next step does nothing
(spec/44_halt.md; decision D16). -/
def Obligations.HltHalts : Prop :=
  ∀ s : State,
    exec .hlt s = .next { s with status := .halted, pc := s.pc + 1 } ∧
    step { s with status := .halted, pc := s.pc + 1 } =
      .next { s with status := .halted, pc := s.pc + 1 }

/-! Where instructions raise. -/

/-- An operand byte that names no register makes each of the nine instructions with register operands
raise OutOfBoundsAccess and write nothing (spec/30_encoding.md section 2; spec/60_exceptions.md
section 1; decision D11). -/
def Obligations.UnnamedRegisterFaults : Prop :=
  ∀ (i : Instr) (s : State), (∃ b ∈ i.regOperands, 8 ≤ b.toNat) →
    exec i s = .next (faultedAt s .outOfBoundsAccess (some i.mnemonic.opcode))

/-- With SP = 0, PUSH and CALL raise OutOfBoundsAccess whatever their operand
(spec/43_stack_subroutine.md section 1, decision D9). -/
def Obligations.StackOverflowFaults : Prop :=
  ∀ (s : State) (r : Byte), s.x[7] = 0 →
    exec (.push r) s = .next (faultedAt s .outOfBoundsAccess (some 0x45)) ∧
    exec (.call r) s = .next (faultedAt s .outOfBoundsAccess (some 0x50))

/-- CALL whose return address would not fit a cell raises OutOfBoundsAccess
(spec/43_stack_subroutine.md, CALL, decision D10). -/
def Obligations.CallWithoutReturnAddressFaults : Prop :=
  ∀ (s : State) (r : Byte), 255 < s.pc + 2 →
    exec (.call r) s = .next (faultedAt s .outOfBoundsAccess (some 0x50))

/-- POP and RET whose incremented SP would be 256 raise OutOfBoundsAccess; for POP R7 it is the popped
value that is incremented (spec/43_stack_subroutine.md section 1, decisions D9 and D13). -/
def Obligations.StackUnderflowFaults : Prop :=
  (∀ s : State, s.x[7] = 255 →
    exec .ret s = .next (faultedAt s .outOfBoundsAccess (some 0x11))) ∧
  (∀ (s : State) (d : Byte), d.toNat ≠ 7 → s.x[7] = 255 →
    exec (.pop d) s = .next (faultedAt s .outOfBoundsAccess (some 0x46))) ∧
  ∀ s : State, memRead s.mem s.x[7].toNat = 255 →
    exec (.pop 7) s = .next (faultedAt s .outOfBoundsAccess (some 0x46))

/-! Frames, over all eleven instructions. -/

/-- No instruction writes a register other than those of its row of the register-write table
(spec/10_state.md section 2; an inference the spec marks as its own). -/
def Obligations.RegistersFrame : Prop :=
  ∀ (i : Instr) (s t : State) (r : Fin 8), exec i s = .next t →
    r.val ∉ writtenRegisters i → t.reg r = s.reg r

/-- No instruction but CMP writes FL (spec/10_state.md section 4, decision D4). -/
def Obligations.FlagsFrame : Prop :=
  ∀ (i : Instr) (s t : State), exec i s = .next t → (∀ a b, i ≠ .cmp a b) → t.fl = s.fl

/-- The eight instructions other than ST, PUSH and CALL leave every byte of memory as it was
(spec/20_memory.md section 1, Accesses; an inference the spec marks as its own). -/
def Obligations.NonStoringMemoryFrame : Prop :=
  ∀ (i : Instr) (s t : State), exec i s = .next t →
    (∀ a v, i ≠ .st a v) → (∀ r, i ≠ .push r) → (∀ r, i ≠ .call r) →
    ∀ k : Nat, memRead t.mem k = memRead s.mem k

/-- ST leaves every byte but the one its address register names, PUSH and CALL every byte but the one
below the stack pointer (spec/20_memory.md section 1, Accesses; an inference the spec marks as its
own). -/
def Obligations.StoringMemoryFrame : Prop :=
  (∀ (a v : Byte) (s t : State), exec (.st a v) s = .next t →
    ∀ k : Nat, (∀ r, checkReg a = .ok r → k ≠ (s.reg r).toNat) →
      memRead t.mem k = memRead s.mem k) ∧
  (∀ (r : Byte) (s t : State), exec (.push r) s = .next t →
    ∀ k : Nat, k ≠ (pushAddr s).toNat → memRead t.mem k = memRead s.mem k) ∧
  ∀ (r : Byte) (s t : State), exec (.call r) s = .next t →
    ∀ k : Nat, k ≠ (pushAddr s).toNat → memRead t.mem k = memRead s.mem k

/-- No instruction but PRN writes the output, and PRN only appends (spec/10_state.md section 6). -/
def Obligations.OutputFrame : Prop :=
  ∀ (i : Instr) (s t : State), exec i s = .next t →
    ((∀ r, i ≠ .prn r) → t.out = s.out) ∧ ∃ tail, t.out = s.out ++ tail ∧ tail.length ≤ 1

/-- The status changes only by HLT, which makes it Halted, and by a fatal condition
(spec/10_state.md section 6). -/
def Obligations.StatusFrame : Prop :=
  ∀ (i : Instr) (s t : State), exec i s = .next t →
    (i ≠ .hlt ∧ t.status = s.status) ∨ (i = .hlt ∧ t.status = .halted) ∨
      t = faultedAt s .outOfBoundsAccess (some i.mnemonic.opcode)

/-- R106: unless the instruction raised, pc advances by one plus the top two bits of its opcode byte,
from the address the instruction was fetched at; CALL and RET alone set pc themselves, with no
advance. -/
def Obligations.PcAdvance : Prop :=
  ∀ (i : Instr) (s t : State), exec i s = .next t →
    t ≠ faultedAt s .outOfBoundsAccess (some i.mnemonic.opcode) →
      match i with
      | .call r => ∃ rt, checkReg r = .ok rt ∧ t.pc = (t.reg rt).toNat
      | .ret => t.pc = (memRead s.mem (s.reg 7).toNat).toNat
      | _ => t.pc = s.pc + 1 + i.mnemonic.opcode.toNat / 64

/-! Properties of several instructions. -/

/-- PUSH then POP of one register, R7 included, restores every register and leaves the pushed value in
memory (spec/43_stack_subroutine.md section 2, an inference the spec marks as its own; decisions D9
and D13). -/
def Obligations.PushThenPopRestores : Prop :=
  ∀ (s : State) (r : Byte) (_ : r.toNat < 8), s.x[7] ≠ 0 →
    ∃ t u, exec (.push r) s = .next t ∧ exec (.pop r) t = .next u ∧ u.x = s.x ∧ u.fl = s.fl ∧
      u.mem = t.mem ∧ memRead u.mem (s.x[7].toNat - 1) = t.x[r.toNat]

/-- CALL and RET match: in any state with SP as CALL left it and the return address still in place, RET
resumes after the CALL with SP as before it (spec/43_stack_subroutine.md section 2, an inference the
spec marks as its own; decisions D9, D10 and D23). -/
def Obligations.ReturnResumesAfterCall : Prop :=
  ∀ (s : State) (r : Byte) (_ : r.toNat < 8), s.x[7] ≠ 0 → s.pc + 2 < 256 →
    ∃ t, exec (.call r) s = .next t ∧
      ∀ u : State, u.x[7] = t.x[7] → memRead u.mem u.x[7].toNat = memRead t.mem t.x[7].toNat →
        ∃ v, exec .ret u = .next v ∧ v.pc = s.pc + 2 ∧ v.x[7] = s.x[7]

/-- LDI followed by PRN of the same register emits exactly the loaded value
(spec/42_load_store_output.md, round trip; an inference the spec marks as its own). -/
def Obligations.LdiThenPrnEmitsValue : Prop :=
  ∀ (s : State) (d imm8 : Byte), d.toNat < 8 →
    ∃ t u, exec (.ldi d imm8) s = .next t ∧ exec (.prn d) t = .next u ∧ u.out = s.out ++ [imm8]

/-- From SP = p, p pushes in a row succeed and take SP to 0, and the next raises OutOfBoundsAccess; from
reset p is 244 (spec/43_stack_subroutine.md section 2, an inference the spec marks as its own;
decision D9). -/
def Obligations.StackDepthIsSp : Prop :=
  State.reset.x[7].toNat = 244 ∧
  ∀ (s : State) (r : Byte), r.toNat < 8 →
    (∀ k : Nat, k ≤ s.x[7].toNat → ∃ t, pushTimes r k s = some t ∧ t.status = s.status ∧
      t.x[7].toNat = s.x[7].toNat - k ∧ t.pc = s.pc + 2 * k) ∧
    ∃ t, pushTimes r s.x[7].toNat s = some t ∧
      exec (.push r) t = .next (faultedAt t .outOfBoundsAccess (some 0x45))

/-- R5 and R6 have no function: an instruction that does not name one neither reads nor writes it, so
its whole effect is the same whatever it holds (spec/10_state.md section 2, decision D14). -/
def Obligations.ReservedRegistersAreInert : Prop :=
  ∀ (i : Instr) (s : State) (r : Fin 8) (v : Byte), (r = 5 ∨ r = 6) →
    (∀ b ∈ i.regOperands, b.toNat ≠ r.val) →
    ∃ t, exec i s = .next t ∧ exec i (s.setReg r v) = .next (t.setReg r v)

/-- No instruction reads FL: whatever it holds, everything an instruction does outside FL is the same
(spec/10_state.md section 4, an inference the spec marks as its own). -/
def Obligations.FlagsAreNeverRead : Prop :=
  ∀ (i : Instr) (s : State) (fl : Byte),
    ∃ t u, exec i s = .next t ∧ exec i { s with fl := fl } = .next u ∧ u = { t with fl := u.fl }

/-- Every byte that ST, PUSH or CALL stores is what every later fetch of its address sees while memory
is as that instruction left it, as an operand byte and as an opcode, legal or not
(spec/20_memory.md section 4, spec/70_reset_and_hazards.md section 4, an inference the spec marks as
its own; decisions D9, D10, D13 and D19). -/
def Obligations.FetchSeesStoredByte : Prop :=
  (∀ (s : State) (a v : Byte) (_ : a.toNat < 8) (_ : v.toNat < 8),
    ∃ t, exec (.st a v) s = .next t ∧ FetchSees t.mem s.x[a.toNat].toNat s.x[v.toNat]) ∧
  (∀ (s : State) (src : Byte) (_ : src.toNat < 8), s.x[7] ≠ 0 →
    ∃ t, exec (.push src) s = .next t ∧
      FetchSees t.mem (s.x[7].toNat - 1) (s.x.set 7 (s.x[7] - 1))[src.toNat]) ∧
  ∀ (s : State) (target : Byte), target.toNat < 8 → s.x[7] ≠ 0 → s.pc + 2 < 256 →
    ∃ t, exec (.call target) s = .next t ∧
      FetchSees t.mem (s.x[7].toNat - 1) (BitVec.ofNat 8 (s.pc + 2))

/-! Invariants of every step, from every state that meets them. -/

/-- Memory keeps its one canonical form: cells that exist, in rising order, none listed at its reset
value (spec/20_memory.md section 1; the form is the model's own, log entry 9). -/
def Obligations.MemoryStaysCanonical : Prop :=
  ∀ s t : State, s.mem.wf = true → step s = .next t → t.mem.wf = true

/-- pc stays in 0..256 (spec/10_state.md section 3, decision D8). -/
def Obligations.PcStaysInRange : Prop :=
  ∀ s t : State, s.pcInRange → step s = .next t → t.pcInRange

/-- FL stays one of 0x00, 0x01, 0x02 and 0x04, so its bits 7:3 stay 0 (spec/10_state.md section 4, an
inference the spec marks as its own; decisions D4 and D6). -/
def Obligations.FlagsStayOneOfFour : Prop :=
  ∀ s t : State, s.flOneOfFour → step s = .next t →
    t.flOneOfFour ∧ ∀ k : Nat, 3 ≤ k → t.fl.getLsbD k = false

/-- What a stopped status says of the machine stays true: a Halted core stands just past a HLT byte; a
FaultRecord holds pc, the byte at pc, and the code that byte calls for (spec/60_exceptions.md
section 2; spec/44_halt.md; decisions D11, D16 and D27). -/
def Obligations.StoppedStatusStaysTruthful : Prop :=
  ∀ s t : State, s.stopIsTruthful → step s = .next t → t.stopIsTruthful
end

