-- ==== Sys2Proof/Laws/Decode.lean ====
section
/-! SUPPORT. The operand count of each row, and that an opcode byte and its row determine each other. -/

namespace Sys2Proof

@[simp] theorem operandCount_ldi : operandCount (Mnemonic.opcode .ldi) = 2 := rfl
@[simp] theorem operandCount_prn : operandCount (Mnemonic.opcode .prn) = 1 := rfl
@[simp] theorem operandCount_add : operandCount (Mnemonic.opcode .add) = 2 := rfl
@[simp] theorem operandCount_mul : operandCount (Mnemonic.opcode .mul) = 2 := rfl
@[simp] theorem operandCount_cmp : operandCount (Mnemonic.opcode .cmp) = 2 := rfl
@[simp] theorem operandCount_push : operandCount (Mnemonic.opcode .push) = 1 := rfl
@[simp] theorem operandCount_pop : operandCount (Mnemonic.opcode .pop) = 1 := rfl
@[simp] theorem operandCount_st : operandCount (Mnemonic.opcode .st) = 2 := rfl
@[simp] theorem operandCount_call : operandCount (Mnemonic.opcode .call) = 1 := rfl
@[simp] theorem operandCount_ret : operandCount (Mnemonic.opcode .ret) = 0 := rfl
@[simp] theorem operandCount_hlt : operandCount (Mnemonic.opcode .hlt) = 0 := rfl

theorem decodeOpcode_opcode (m : Mnemonic) : decodeOpcode m.opcode = some m := by
  cases m <;> rfl

/-- A byte that decodes is the opcode of what it decodes to: no two rows overlap. -/
theorem opcode_of_decodeOpcode {b : Byte} {m : Mnemonic} (h : decodeOpcode b = some m) :
    m.opcode = b := by
  simpa using List.find?_some h

/-- Two readings that agree on the first three bytes decode alike: no instruction is longer. -/
theorem decodeFrom_congr {f g : Nat → Option Byte} (h0 : f 0 = g 0) (h1 : f 1 = g 1)
    (h2 : f 2 = g 2) : decodeFrom f = decodeFrom g := by
  unfold decodeFrom
  rw [h0]
  cases g 0 with
  | none => rfl
  | some b0 =>
    cases hm : decodeOpcode b0 with
    | none => simp [hm]
    | some m => cases m <;> simp [hm, decodeOperands, withOperand, withOperands, h1, h2]

end Sys2Proof
end

