-- ==== Sys2Proof/Laws/Memory.lean ====
section
/-! SUPPORT. The laws of memory: a read after a write, every other address left alone, and the
canonical form kept by every operation. -/

namespace Sys2Proof.Machine

theorem memRead_memErase (m : Memory) (a k : Nat) :
    memRead (memErase m a) k = if a = k then Config.memInit else memRead m k := by
  induction m with
  | nil => simp [memErase, memRead]
  | cons c m ih =>
    by_cases hc : c.1 = a
    · by_cases hk : a = k <;> simp_all [memErase, memRead]
    · by_cases hk : c.1 = k
      · subst hk
        simp [memErase, memRead, hc, Ne.symm hc]
      · simp [memErase, memRead, hc, hk, ih]

theorem memRead_memInsert_ne (m : Memory) {a k : Nat} (v : Byte) (h : a ≠ k) :
    memRead (memInsert m a v) k = memRead m k := by
  induction m with
  | nil => simp [memInsert, memRead, h]
  | cons c m ih =>
    by_cases hc : a < c.1
    · simp [memInsert, memRead, hc, h]
    · simp [memInsert, memRead, hc, ih]

theorem memRead_memInsert_erased (m : Memory) (a : Nat) (v : Byte) :
    memRead (memInsert (memErase m a) a v) a = v := by
  induction m with
  | nil => simp [memErase, memInsert, memRead]
  | cons c m ih =>
    by_cases hc : c.1 = a
    · simpa [memErase, hc] using ih
    · by_cases hl : a < c.1
      · simp [memErase, memInsert, memRead, hc, hl]
      · simp [memErase, memInsert, memRead, hc, hl, ih]

/-- A write gives its cell the value and leaves every other address alone. -/
theorem memRead_memWrite (m : Memory) (a k : Nat) (v : Byte) :
    memRead (memWrite m a v) k = if a = k then v else memRead m k := by
  unfold memWrite
  by_cases hv : v = Config.memInit
  · simp [hv, memRead_memErase]
  · by_cases hk : a = k
    · subst hk
      simp [hv, memRead_memInsert_erased]
    · simp [hv, hk, memRead_memInsert_ne _ v hk, memRead_memErase]

@[simp] theorem memRead_memWrite_same (m : Memory) (a : Nat) (v : Byte) :
    memRead (memWrite m a v) a = v := by
  simp [memRead_memWrite]

theorem memRead_memWrite_of_ne (m : Memory) {a k : Nat} (v : Byte) (h : a ≠ k) :
    memRead (memWrite m a v) k = memRead m k := by
  simp [memRead_memWrite, h]

/-! The canonical form. -/

theorem mem_memErase {m : Memory} {a : Nat} {c : Host.Cell} :
    c ∈ memErase m a ↔ c ∈ m ∧ c.1 ≠ a := by
  induction m with
  | nil => simp [memErase]
  | cons d m ih =>
    by_cases hd : d.1 = a
    · simp only [memErase, hd, if_true, ih, List.mem_cons]
      constructor
      · rintro ⟨h, hne⟩
        exact ⟨Or.inr h, hne⟩
      · rintro ⟨rfl | h, hne⟩
        · exact absurd hd hne
        · exact ⟨h, hne⟩
    · simp only [memErase, hd, if_false, ih, List.mem_cons]
      constructor
      · rintro (rfl | ⟨h, hne⟩)
        · exact ⟨Or.inl rfl, hd⟩
        · exact ⟨Or.inr h, hne⟩
      · rintro ⟨rfl | h, hne⟩
        · exact Or.inl rfl
        · exact Or.inr ⟨h, hne⟩

theorem mem_memInsert {m : Memory} {a : Nat} {v : Byte} {c : Host.Cell} :
    c ∈ memInsert m a v ↔ c = (a, v) ∨ c ∈ m := by
  induction m with
  | nil => simp [memInsert]
  | cons d m ih =>
    by_cases hd : a < d.1
    · simp [memInsert, hd]
    · simp [memInsert, hd, ih, or_left_comm]

theorem rising_cons {c : Host.Cell} {m : Memory} :
    Memory.rising (c :: m) = true ↔ (∀ d ∈ m, c.1 < d.1) ∧ Memory.rising m = true := by
  simp [Memory.rising]

theorem rising_memErase {m : Memory} (a : Nat) (h : m.rising = true) :
    Memory.rising (memErase m a) = true := by
  induction m with
  | nil => simp [memErase, Memory.rising]
  | cons c m ih =>
    obtain ⟨hlt, hm⟩ := rising_cons.mp h
    by_cases hc : c.1 = a
    · simpa [memErase, hc] using ih hm
    · simp only [memErase, hc, if_false]
      exact rising_cons.mpr ⟨fun d hd => hlt d (mem_memErase.mp hd).1, ih hm⟩

theorem rising_memInsert {m : Memory} {a : Nat} (v : Byte) (h : m.rising = true)
    (ha : ∀ c ∈ m, c.1 ≠ a) : Memory.rising (memInsert m a v) = true := by
  induction m with
  | nil => simp [memInsert, Memory.rising]
  | cons c m ih =>
    obtain ⟨hlt, hm⟩ := rising_cons.mp h
    by_cases hc : a < c.1
    · simp only [memInsert, hc, if_true]
      refine rising_cons.mpr ⟨fun d hd => ?_, h⟩
      rcases List.mem_cons.mp hd with rfl | hd
      · exact hc
      · exact Nat.lt_trans hc (hlt d hd)
    · simp only [memInsert, hc, if_false]
      have hca : c.1 < a := by
        have := ha c (List.mem_cons_self ..)
        omega
      refine rising_cons.mpr ⟨fun d hd => ?_, ih hm fun d hd => ha d (List.mem_cons_of_mem _ hd)⟩
      rcases mem_memInsert.mp hd with rfl | hd
      · exact hca
      · exact hlt d hd

theorem memory_wf_iff {m : Memory} :
    m.wf = true ↔ (∀ c ∈ m, Memory.cellOk c = true) ∧ m.rising = true := by
  simp [Memory.wf]

theorem wf_memErase {m : Memory} (a : Nat) (h : m.wf = true) : Memory.wf (memErase m a) = true := by
  obtain ⟨hc, hr⟩ := memory_wf_iff.mp h
  exact memory_wf_iff.mpr ⟨fun c hm => hc c (mem_memErase.mp hm).1, rising_memErase a hr⟩

/-- A write to an address that exists keeps the canonical form. -/
theorem wf_memWrite {m : Memory} {a : Nat} (v : Byte) (ha : a < Config.memSize) (h : m.wf = true) :
    Memory.wf (memWrite m a v) = true := by
  unfold memWrite
  by_cases hv : v = Config.memInit
  · simpa [hv] using wf_memErase a h
  · obtain ⟨hc, hr⟩ := memory_wf_iff.mp (wf_memErase a h)
    simp only [hv, if_false]
    refine memory_wf_iff.mpr ⟨fun c hm => ?_, rising_memInsert v hr fun c hm => (mem_memErase.mp hm).2⟩
    rcases mem_memInsert.mp hm with rfl | hm
    · simp only [Config.memSize_eq] at ha
      simp [Memory.cellOk, hv, ha]
    · exact hc c hm

/-- The reset memory is in canonical form. -/
theorem wf_reset : State.reset.mem.wf = true := rfl

/-- Storing at a byte address keeps the canonical form. -/
theorem wf_store {s : State} (a v : Byte) (h : s.mem.wf = true) : (s.store a v).mem.wf = true :=
  wf_memWrite v a.isLt h

end Sys2Proof.Machine
end

