-- ==== Sys2Proof/Laws/State.lean ====
section
/-! SUPPORT. What each update of the state does to each field, one lemma each, and the register file
read after a write. -/

namespace Sys2Proof.Machine

section
variable (s : State)

@[simp] theorem setReg_x (i : Fin 8) (v : Byte) : (s.setReg i v).x = s.x.set i v := rfl
@[simp] theorem setReg_fl (i : Fin 8) (v : Byte) : (s.setReg i v).fl = s.fl := rfl
@[simp] theorem setReg_pc (i : Fin 8) (v : Byte) : (s.setReg i v).pc = s.pc := rfl
@[simp] theorem setReg_mem (i : Fin 8) (v : Byte) : (s.setReg i v).mem = s.mem := rfl
@[simp] theorem setReg_status (i : Fin 8) (v : Byte) : (s.setReg i v).status = s.status := rfl
@[simp] theorem setReg_out (i : Fin 8) (v : Byte) : (s.setReg i v).out = s.out := rfl

@[simp] theorem setSp_x (v : Byte) : (s.setSp v).x = s.x.set Config.spIndex v := rfl
@[simp] theorem setSp_fl (v : Byte) : (s.setSp v).fl = s.fl := rfl
@[simp] theorem setSp_pc (v : Byte) : (s.setSp v).pc = s.pc := rfl
@[simp] theorem setSp_mem (v : Byte) : (s.setSp v).mem = s.mem := rfl
@[simp] theorem setSp_status (v : Byte) : (s.setSp v).status = s.status := rfl
@[simp] theorem setSp_out (v : Byte) : (s.setSp v).out = s.out := rfl

@[simp] theorem setFl_x (v : Byte) : (s.setFl v).x = s.x := rfl
@[simp] theorem setFl_fl (v : Byte) : (s.setFl v).fl = v := rfl
@[simp] theorem setFl_pc (v : Byte) : (s.setFl v).pc = s.pc := rfl
@[simp] theorem setFl_mem (v : Byte) : (s.setFl v).mem = s.mem := rfl
@[simp] theorem setFl_status (v : Byte) : (s.setFl v).status = s.status := rfl
@[simp] theorem setFl_out (v : Byte) : (s.setFl v).out = s.out := rfl

@[simp] theorem setPc_x (p : Nat) : (s.setPc p).x = s.x := rfl
@[simp] theorem setPc_fl (p : Nat) : (s.setPc p).fl = s.fl := rfl
@[simp] theorem setPc_pc (p : Nat) : (s.setPc p).pc = p := rfl
@[simp] theorem setPc_mem (p : Nat) : (s.setPc p).mem = s.mem := rfl
@[simp] theorem setPc_status (p : Nat) : (s.setPc p).status = s.status := rfl
@[simp] theorem setPc_out (p : Nat) : (s.setPc p).out = s.out := rfl

@[simp] theorem store_x (a v : Byte) : (s.store a v).x = s.x := rfl
@[simp] theorem store_fl (a v : Byte) : (s.store a v).fl = s.fl := rfl
@[simp] theorem store_pc (a v : Byte) : (s.store a v).pc = s.pc := rfl
@[simp] theorem store_mem (a v : Byte) : (s.store a v).mem = memWrite s.mem a.toNat v := rfl
@[simp] theorem store_status (a v : Byte) : (s.store a v).status = s.status := rfl
@[simp] theorem store_out (a v : Byte) : (s.store a v).out = s.out := rfl

@[simp] theorem emit_x (v : Byte) : (s.emit v).x = s.x := rfl
@[simp] theorem emit_fl (v : Byte) : (s.emit v).fl = s.fl := rfl
@[simp] theorem emit_pc (v : Byte) : (s.emit v).pc = s.pc := rfl
@[simp] theorem emit_mem (v : Byte) : (s.emit v).mem = s.mem := rfl
@[simp] theorem emit_status (v : Byte) : (s.emit v).status = s.status := rfl
@[simp] theorem emit_out (v : Byte) : (s.emit v).out = s.out ++ [v] := rfl

@[simp] theorem halt_x : (s.halt).x = s.x := rfl
@[simp] theorem halt_fl : (s.halt).fl = s.fl := rfl
@[simp] theorem halt_pc : (s.halt).pc = s.pc := rfl
@[simp] theorem halt_mem : (s.halt).mem = s.mem := rfl
@[simp] theorem halt_status : (s.halt).status = .halted := rfl
@[simp] theorem halt_out : (s.halt).out = s.out := rfl

@[simp] theorem enterFault_x (e : Fatal) (o : Option Byte) : (enterFault e o s).x = s.x := rfl
@[simp] theorem enterFault_fl (e : Fatal) (o : Option Byte) : (enterFault e o s).fl = s.fl := rfl
@[simp] theorem enterFault_pc (e : Fatal) (o : Option Byte) : (enterFault e o s).pc = s.pc := rfl
@[simp] theorem enterFault_mem (e : Fatal) (o : Option Byte) : (enterFault e o s).mem = s.mem := rfl
@[simp] theorem enterFault_status (e : Fatal) (o : Option Byte) : (enterFault e o s).status = .faulted { code := fatalCode e, pc := s.pc, opcode := o } := rfl
@[simp] theorem enterFault_out (e : Fatal) (o : Option Byte) : (enterFault e o s).out = s.out := rfl

end

@[simp] theorem reg_setReg_same (s : State) (i : Fin 8) (v : Byte) : (s.setReg i v).reg i = v := by
  simp [State.reg]

theorem reg_setReg_of_ne (s : State) {i j : Fin 8} (v : Byte) (h : i ≠ j) :
    (s.setReg i v).reg j = s.reg j := by
  have : (i : Nat) ≠ (j : Nat) := fun e => h (Fin.ext e)
  simp [State.reg, this]

/-- Writing a register changes that register and no other. -/
theorem reg_setReg (s : State) (i j : Fin 8) (v : Byte) :
    (s.setReg i v).reg j = if i = j then v else s.reg j := by
  by_cases h : i = j
  · subst h; simp
  · simp [h, reg_setReg_of_ne s v h]

/-- An update that leaves the register file alone leaves every register alone. -/
theorem reg_congr {s t : State} (h : t.x = s.x) (i : Fin 8) : t.reg i = s.reg i := by
  simp [State.reg, h]

@[simp] theorem setReg_reg_self (s : State) (i : Fin 8) : s.setReg i (s.reg i) = s := by
  cases s; simp [State.setReg, State.reg]

@[simp] theorem sp_setSp (s : State) (v : Byte) : (s.setSp v).sp = v := reg_setReg_same s _ v

@[simp] theorem sp_setReg_of_ne (s : State) {i : Fin 8} (v : Byte) (h : i ≠ Config.spIndex) :
    (s.setReg i v).sp = s.sp := reg_setReg_of_ne s v h

@[simp] theorem setPc_setPc (s : State) (p q : Nat) : (s.setPc p).setPc q = s.setPc q := rfl

@[simp] theorem reg_store (s : State) (a v : Byte) (i : Fin 8) : (s.store a v).reg i = s.reg i := rfl

@[simp] theorem reg_setPc (s : State) (p : Nat) (i : Fin 8) : (s.setPc p).reg i = s.reg i := rfl

end Sys2Proof.Machine
end

