-- ==== Sys2Proof/Laws/Ops.lean ====
section
/-! SUPPORT. One lemma per shared operation that says everything it can do; cite these instead of
unfolding the operations. -/

namespace Sys2Proof.Machine

/-! Register operands. -/

theorem checkReg_of_lt {b : Byte} (h : b.toNat < 8) : checkReg b = .ok ⟨b.toNat, h⟩ := by
  simp [checkReg, h]

theorem checkReg_of_ge {b : Byte} (h : ¬ b.toNat < 8) :
    checkReg b = .error (.regOutOfBounds b.toNat) := by
  simp [checkReg, h]

/-- `check_reg` answers the register the byte names, or raises. -/
theorem checkReg_cases (b : Byte) :
    (∃ h : b.toNat < 8, checkReg b = .ok ⟨b.toNat, h⟩) ∨
      (¬ b.toNat < 8 ∧ checkReg b = .error (.regOutOfBounds b.toNat)) := by
  by_cases h : b.toNat < 8
  · exact .inl ⟨h, checkReg_of_lt h⟩
  · exact .inr ⟨h, checkReg_of_ge h⟩

/-! Sequencing of checks. -/

@[simp] theorem except_bind_ok {α β : Type} (v : α) (k : α → Except Fatal β) :
    ((Except.ok v : Except Fatal α) >>= k) = k v := rfl

@[simp] theorem except_bind_error {α β : Type} (e : Fatal) (k : α → Except Fatal β) :
    ((Except.error e : Except Fatal α) >>= k) = .error e := rfl

@[simp] theorem except_pure {α : Type} (v : α) : (pure v : Except Fatal α) = .ok v := rfl

/-! The stack. -/

theorem spDecrement_of_ne {s : State} (h : s.sp ≠ 0) : spDecrement s = .ok (s.setSp (pushAddr s)) := by
  simp only [spDecrement, h, if_false]

theorem spDecrement_of_eq {s : State} (h : s.sp = 0) :
    spDecrement s = .error (.addrOutOfBounds (-1)) := by
  simp only [spDecrement, h, if_true]

theorem spIncrement_of_ne {s : State} (h : s.sp ≠ 255) : spIncrement s = .ok (s.setSp (s.sp + 1)) := by
  simp only [spIncrement, h, if_false]

theorem spIncrement_of_eq {s : State} (h : s.sp = 255) :
    spIncrement s = .error (.addrOutOfBounds 256) := by
  simp only [spIncrement, h, if_true]

/-- A push that completes decrements SP and writes the cell it then addresses. -/
theorem stackPush_of_ne {v : State → Byte} {s : State} (h : s.sp ≠ 0) :
    stackPush v s = .ok ((s.setSp (pushAddr s)).store (pushAddr s) (v (s.setSp (pushAddr s)))) := by
  simp [stackPush, spDecrement_of_ne h]

theorem stackPush_of_eq {v : State → Byte} {s : State} (h : s.sp = 0) :
    stackPush v s = .error (.addrOutOfBounds (-1)) := by
  simp [stackPush, spDecrement_of_eq h]

theorem returnAddress_of_lt {s : State} (h : s.pc + 2 < 256) :
    returnAddress s = .ok (BitVec.ofNat 8 (s.pc + 2)) := by
  simp [returnAddress, h]

theorem returnAddress_of_ge {s : State} (h : ¬ s.pc + 2 < 256) :
    returnAddress s = .error (.addrOutOfBounds (s.pc + 2)) := by
  simp [returnAddress, h]

theorem pushAddr_toNat {s : State} (h : s.sp ≠ 0) : (pushAddr s).toNat = s.sp.toNat - 1 := by
  have h0 : s.sp.toNat ≠ 0 := fun e => h (BitVec.eq_of_toNat_eq (by simpa using e))
  have hl := s.sp.isLt
  have h1 : (1 : Byte).toNat = 1 := rfl
  simp only [pushAddr, BitVec.toNat_sub, h1]
  omega

/-! The ALU. -/

theorem aluSum_toNat (a b : Byte) : (aluSum a b).toNat = (a.toNat + b.toNat) % 256 := by
  simp [aluSum]

theorem aluProduct_toNat (a b : Byte) : (aluProduct a b).toNat = a.toNat * b.toNat % 256 := by
  simp [aluProduct]

/-! Retirement. -/

/-- A handler that raised leaves everything but the status alone. -/
@[simp] theorem retire_error (m : Mnemonic) (s : State) (e : Fatal) :
    retire m s (.error e) = .next (enterFault e (some m.opcode) s) := rfl

/-- A handler that completed is followed by the generic advance. -/
@[simp] theorem retire_ok (m : Mnemonic) (s t : State) : retire m s (.ok t) = .next (advance m s t) := rfl

/-- Everything retirement can answer. -/
theorem retire_cases {m : Mnemonic} {s t : State} {r : Except Fatal State}
    (h : retire m s r = .next t) :
    (∃ e, r = .error e ∧ t = enterFault e (some m.opcode) s) ∨
      (∃ u, r = .ok u ∧ t = advance m s u) := by
  cases r with
  | error e => exact .inl ⟨e, rfl, by simpa using h.symm⟩
  | ok u => exact .inr ⟨u, rfl, by simpa using h.symm⟩

/-- The generic advance changes at most pc. -/
theorem advance_eq (m : Mnemonic) (s t : State) :
    advance m s t = t.setPc (if m.setsPc then t.pc else s.pc + 1 + operandCount m.opcode) := by
  unfold advance
  split <;> simp_all [State.setPc]

end Sys2Proof.Machine
end

