-- ==== Sys2Proof/Laws/Exec.lean ====
section
/-! SUPPORT. The inversion lemmas of the machine: everything an instruction can leave, and everything a
step can be. Cite these instead of unfolding a meaning. -/

namespace Sys2Proof.Machine

/-- What an instruction leaves when it completes, and the conditions under which it does. -/
def Completed (i : Instr) (s t : State) : Prop :=
  match i with
  | .ldi d imm8 => ∃ rd, checkReg d = .ok rd ∧ t = (s.setReg rd imm8).setPc (s.pc + 3)
  | .prn src => ∃ rs, checkReg src = .ok rs ∧ t = (s.emit (s.reg rs)).setPc (s.pc + 2)
  | .add a b => ∃ ra rb, checkReg a = .ok ra ∧ checkReg b = .ok rb ∧
      t = (s.setReg ra (aluSum (s.reg ra) (s.reg rb))).setPc (s.pc + 3)
  | .mul a b => ∃ ra rb, checkReg a = .ok ra ∧ checkReg b = .ok rb ∧
      t = (s.setReg ra (aluProduct (s.reg ra) (s.reg rb))).setPc (s.pc + 3)
  | .cmp a b => ∃ ra rb, checkReg a = .ok ra ∧ checkReg b = .ok rb ∧
      t = (s.setFl (compareFlags (s.reg ra) (s.reg rb))).setPc (s.pc + 3)
  | .push src => ∃ rs, checkReg src = .ok rs ∧ s.sp ≠ 0 ∧
      t = ((s.setSp (pushAddr s)).store (pushAddr s) ((s.setSp (pushAddr s)).reg rs)).setPc (s.pc + 2)
  | .pop d => ∃ rd, checkReg d = .ok rd ∧ (s.setReg rd (stackTop s)).sp ≠ 255 ∧
      t = ((s.setReg rd (stackTop s)).setSp ((s.setReg rd (stackTop s)).sp + 1)).setPc (s.pc + 2)
  | .st a v => ∃ ra rv, checkReg a = .ok ra ∧ checkReg v = .ok rv ∧
      t = (s.store (s.reg ra) (s.reg rv)).setPc (s.pc + 3)
  | .call tgt => ∃ rt, checkReg tgt = .ok rt ∧ s.sp ≠ 0 ∧ s.pc + 2 < 256 ∧
      t = ((s.setSp (pushAddr s)).store (pushAddr s) (BitVec.ofNat 8 (s.pc + 2))).setPc
        ((s.setSp (pushAddr s)).reg rt).toNat
  | .ret => s.sp ≠ 255 ∧ t = (s.setSp (s.sp + 1)).setPc (stackTop s).toNat
  | .hlt => t = s.halt.setPc (s.pc + 1)

/-- The register a checked operand names is the one its byte says. -/
theorem checkReg_val {b : Byte} {r : Fin 8} (h : checkReg b = .ok r) : r.val = b.toNat := by
  rcases checkReg_cases b with ⟨hb, e⟩ | ⟨_, e⟩ <;> rw [e] at h
  · injection h with h
    exact congrArg Fin.val h.symm
  · cases h

theorem next_inj {s t : State} (h : (.next s : Host.Outcome State Fault Refusal) = .next t) : t = s := by
  injection h with h
  exact h.symm

/-- Everything an instruction can leave: the fault of an out-of-range access, or its completion. -/
theorem exec_cases {i : Instr} {s t : State} (h : exec i s = .next t) :
    t = faultedAt s .outOfBoundsAccess (some i.mnemonic.opcode) ∨ Completed i s t := by
  cases i with
  | ldi d imm8 =>
    rcases checkReg_cases d with ⟨hd, e⟩ | ⟨_, e⟩ <;> simp only [exec, execLdi, e] at h
    · exact .inr ⟨_, e, by simpa [advance_eq, Mnemonic.setsPc, immediate] using next_inj h⟩
    · exact .inl (next_inj h)
  | prn src =>
    rcases checkReg_cases src with ⟨hd, e⟩ | ⟨_, e⟩ <;> simp only [exec, execPrn, e] at h
    · exact .inr ⟨_, e, by simpa [advance_eq, Mnemonic.setsPc] using next_inj h⟩
    · exact .inl (next_inj h)
  | add a b =>
    rcases checkReg_cases a with ⟨ha, e⟩ | ⟨_, e⟩ <;> rcases checkReg_cases b with ⟨hb, e'⟩ | ⟨_, e'⟩ <;>
      simp only [exec, execAdd, aluHandler, e, e'] at h
    · exact .inr ⟨_, _, e, e', by simpa [advance_eq, Mnemonic.setsPc, aluApply] using next_inj h⟩
    all_goals exact .inl (next_inj h)
  | mul a b =>
    rcases checkReg_cases a with ⟨ha, e⟩ | ⟨_, e⟩ <;> rcases checkReg_cases b with ⟨hb, e'⟩ | ⟨_, e'⟩ <;>
      simp only [exec, execMul, aluHandler, e, e'] at h
    · exact .inr ⟨_, _, e, e', by simpa [advance_eq, Mnemonic.setsPc, aluApply] using next_inj h⟩
    all_goals exact .inl (next_inj h)
  | cmp a b =>
    rcases checkReg_cases a with ⟨ha, e⟩ | ⟨_, e⟩ <;> rcases checkReg_cases b with ⟨hb, e'⟩ | ⟨_, e'⟩ <;>
      simp only [exec, execCmp, aluHandler, e, e'] at h
    · exact .inr ⟨_, _, e, e', by simpa [advance_eq, Mnemonic.setsPc, aluApply] using next_inj h⟩
    all_goals exact .inl (next_inj h)
  | st a v =>
    rcases checkReg_cases a with ⟨ha, e⟩ | ⟨_, e⟩ <;> rcases checkReg_cases v with ⟨hb, e'⟩ | ⟨_, e'⟩ <;>
      simp only [exec, execSt, e, e'] at h
    · exact .inr ⟨_, _, e, e', by simpa [advance_eq, Mnemonic.setsPc] using next_inj h⟩
    all_goals exact .inl (next_inj h)
  | push src =>
    rcases checkReg_cases src with ⟨hd, e⟩ | ⟨_, e⟩ <;> simp only [exec, execPush, e, except_bind_ok] at h
    · by_cases hs : s.sp = 0
      · exact .inl (next_inj (by rw [← h, stackPush_of_eq hs]; rfl))
      · rw [stackPush_of_ne hs] at h
        exact .inr ⟨_, e, hs, by simpa [advance_eq, Mnemonic.setsPc] using next_inj h⟩
    · exact .inl (next_inj h)
  | pop d =>
    rcases checkReg_cases d with ⟨hd, e⟩ | ⟨_, e⟩ <;> simp only [exec, execPop, e, except_bind_ok] at h
    · by_cases hs : (s.setReg ⟨d.toNat, hd⟩ (stackTop s)).sp = 255
      · exact .inl (next_inj (by rw [← h, spIncrement_of_eq hs]; rfl))
      · rw [spIncrement_of_ne hs] at h
        exact .inr ⟨_, e, hs, by simpa [advance_eq, Mnemonic.setsPc] using next_inj h⟩
    · exact .inl (next_inj h)
  | call tgt =>
    rcases checkReg_cases tgt with ⟨hd, e⟩ | ⟨_, e⟩ <;> simp only [exec, execCall, e, except_bind_ok] at h
    · by_cases hs : s.sp = 0
      · exact .inl (next_inj (by rw [← h, spDecrement_of_eq hs]; rfl))
      · by_cases hp : s.pc + 2 < 256
        · simp only [spDecrement_of_ne hs, returnAddress_of_lt hp, stackPush_of_ne hs,
            except_bind_ok] at h
          refine .inr ⟨_, e, hs, hp, ?_⟩
          simpa [advance_eq, Mnemonic.setsPc] using next_inj h
        · exact .inl (next_inj (by rw [← h, spDecrement_of_ne hs, returnAddress_of_ge hp]; rfl))
    · exact .inl (next_inj h)
  | ret =>
    simp only [exec, execRet] at h
    by_cases hs : s.sp = 255
    · exact .inl (next_inj (by rw [← h, spIncrement_of_eq hs]; rfl))
    · rw [spIncrement_of_ne hs] at h
      exact .inr ⟨hs, by simpa [advance_eq, Mnemonic.setsPc] using next_inj h⟩
  | hlt => exact .inr (by simpa [Completed, exec, execHlt, advance_eq, Mnemonic.setsPc] using next_inj h)

/-- Everything a step can be: nothing in a stopped core, the fault of a failed fetch, or the meaning of
the instruction fetched. -/
theorem step_cases (s : State) :
    (s.status ≠ .running ∧ step s = .next s) ∨
      (s.status = .running ∧ ∃ e, fetch s = .error e ∧ step s = .next (fetchFault s e)) ∨
        (s.status = .running ∧ ∃ i, fetch s = .ok i ∧ step s = exec i s) := by
  unfold step
  cases hs : s.status with
  | halted => exact .inl ⟨by simp, rfl⟩
  | faulted r => exact .inl ⟨by simp, rfl⟩
  | running =>
    cases hf : fetch s with
    | error e => exact .inr (.inl ⟨rfl, e, rfl, rfl⟩)
    | ok i => exact .inr (.inr ⟨rfl, i, rfl, rfl⟩)

/-- An instruction that is fetched has its opcode byte at pc and its last byte inside memory. -/
theorem fetch_ok {s : State} {i : Instr} (h : fetch s = .ok i) :
    s.codeByte 0 = some i.mnemonic.opcode ∧ s.pc + operandCount i.mnemonic.opcode < 256 := by
  have inMem : ∀ {k : Nat} {b : Byte}, s.codeByte k = some b → s.pc + k < 256 := by
    intro k b hk
    unfold State.codeByte at hk
    split at hk
    · simpa using ‹_›
    · cases hk
  unfold fetch decodeFrom at h
  cases h0 : s.codeByte 0 with
  | none => simp [h0] at h
  | some b0 =>
    rw [h0] at h
    cases hm : decodeOpcode b0 with
    | none => simp [hm] at h
    | some m =>
      obtain rfl := opcode_of_decodeOpcode hm
      have hp := inMem h0
      cases h1 : s.codeByte 1 <;> cases h2 : s.codeByte 2 <;> cases m <;>
        simp [hm, decodeOperands, withOperand, withOperands, h1, h2] at h <;> subst h <;>
        refine ⟨rfl, ?_⟩ <;> simp only [Instr.mnemonic, operandCount_ldi, operandCount_prn,
          operandCount_add, operandCount_mul, operandCount_cmp, operandCount_push, operandCount_pop,
          operandCount_st, operandCount_call, operandCount_ret, operandCount_hlt] <;>
        first | exact hp | exact inMem h1 | exact inMem h2

end Sys2Proof.Machine
end

