-- ==== Sys2Proof/Laws/PerInstr.lean ====
section
/-! SUPPORT. Statements made once per instruction. -/

namespace Sys2Proof.Laws

/-- The shape of an encoding: the opcode byte of the instruction's row comes first and decodes to that
row, and the operand bytes after it are as many as its bits 7:6 say (spec/30_encoding.md R71, R78). -/
def EncodingShape.Statement (i : Instr) : Prop :=
  (encode i).head? = some i.mnemonic.opcode ∧ decodeOpcode i.mnemonic.opcode = some i.mnemonic ∧
    (encode i).tail.length = operandCount i.mnemonic.opcode ∧ (encode i).length = i.length

theorem EncodingShape.ldi (d imm8 : Byte) : EncodingShape.Statement (.ldi d imm8) :=
  ⟨rfl, rfl, by simp [encode, Instr.mnemonic], by simp [encode, Instr.length, Instr.mnemonic]⟩

theorem EncodingShape.prn (s : Byte) : EncodingShape.Statement (.prn s) :=
  ⟨rfl, rfl, by simp [encode, Instr.mnemonic], by simp [encode, Instr.length, Instr.mnemonic]⟩

theorem EncodingShape.add (a b : Byte) : EncodingShape.Statement (.add a b) :=
  ⟨rfl, rfl, by simp [encode, Instr.mnemonic], by simp [encode, Instr.length, Instr.mnemonic]⟩

theorem EncodingShape.mul (a b : Byte) : EncodingShape.Statement (.mul a b) :=
  ⟨rfl, rfl, by simp [encode, Instr.mnemonic], by simp [encode, Instr.length, Instr.mnemonic]⟩

theorem EncodingShape.cmp (a b : Byte) : EncodingShape.Statement (.cmp a b) :=
  ⟨rfl, rfl, by simp [encode, Instr.mnemonic], by simp [encode, Instr.length, Instr.mnemonic]⟩

theorem EncodingShape.push (s : Byte) : EncodingShape.Statement (.push s) :=
  ⟨rfl, rfl, by simp [encode, Instr.mnemonic], by simp [encode, Instr.length, Instr.mnemonic]⟩

theorem EncodingShape.pop (d : Byte) : EncodingShape.Statement (.pop d) :=
  ⟨rfl, rfl, by simp [encode, Instr.mnemonic], by simp [encode, Instr.length, Instr.mnemonic]⟩

theorem EncodingShape.st (a v : Byte) : EncodingShape.Statement (.st a v) :=
  ⟨rfl, rfl, by simp [encode, Instr.mnemonic], by simp [encode, Instr.length, Instr.mnemonic]⟩

theorem EncodingShape.call (t : Byte) : EncodingShape.Statement (.call t) :=
  ⟨rfl, rfl, by simp [encode, Instr.mnemonic], by simp [encode, Instr.length, Instr.mnemonic]⟩

theorem EncodingShape.ret : EncodingShape.Statement .ret :=
  ⟨rfl, rfl, by simp [encode, Instr.mnemonic], by simp [encode, Instr.length, Instr.mnemonic]⟩

theorem EncodingShape.hlt : EncodingShape.Statement .hlt :=
  ⟨rfl, rfl, by simp [encode, Instr.mnemonic], by simp [encode, Instr.length, Instr.mnemonic]⟩

end Sys2Proof.Laws
end

