-- ==== Sys2Proof/Machine/HostPort.lean ====
section
/-! DEFINITION. The control port (spec/10_state.md R44, spec/70_reset_and_hazards.md R248): all the host
can do to the core. There is no other input. -/

namespace Sys2Proof.Machine

/-- A request at the control port. Loading comes only right after a reset (R246), so the two are one
request. -/
inductive HostRequest where
  /-- Reset the core (R240). -/
  | reset
  /-- Reset the core and load an image (R243). -/
  | start (image : List Byte)
  /-- Request one step (R248). -/
  | step
  deriving DecidableEq, Repr

/-- What the core answers to a request. -/
def serve (r : HostRequest) (s : State) : Host.Outcome State Fault Refusal :=
  match r with
  | .reset => .next (resetCore s)
  | .start image => boot image
  | .step => step s

end Sys2Proof.Machine
end

