-- ==== Sys2Proof/Tests/Slice0.lean ====
section
/-! SUPPORT. Tests of the model against the vectors of spec/95_test_vectors.md (each test names its
vector or rule), and a witness of the hypotheses of every statement that has some. -/

namespace Sys2Proof.Tests

open Sys2Proof.Machine

/-! Well-formedness: each check refuses a term that breaks it (R74). -/

theorem test_wf_accepts_all_named : Instr.wellFormed (.add 7 0) = true := by decide
theorem test_wf_accepts_any_immediate : Instr.wellFormed (.ldi 0 255) = true := by decide
theorem test_wf_refuses_ldi : Instr.wellFormed (.ldi 8 1) = false := by decide
theorem test_wf_refuses_prn : Instr.wellFormed (.prn 8) = false := by decide
theorem test_wf_refuses_add_first : Instr.wellFormed (.add 8 0) = false := by decide
theorem test_wf_refuses_add_second : Instr.wellFormed (.add 0 8) = false := by decide
theorem test_wf_refuses_mul : Instr.wellFormed (.mul 0 255) = false := by decide
theorem test_wf_refuses_cmp : Instr.wellFormed (.cmp 0 8) = false := by decide
theorem test_wf_refuses_push : Instr.wellFormed (.push 8) = false := by decide
theorem test_wf_refuses_pop : Instr.wellFormed (.pop 8) = false := by decide
theorem test_wf_refuses_st_address : Instr.wellFormed (.st 9 0) = false := by decide
theorem test_wf_refuses_st_value : Instr.wellFormed (.st 0 9) = false := by decide
theorem test_wf_refuses_call : Instr.wellFormed (.call 8) = false := by decide

/-! Decoding: words written out bit by bit from R80 and R85, operands at distinct values. -/

theorem test_decode_ldi : decode [0b10000010, 3, 0xFF] = .ok (.ldi 3 0xFF, []) := rfl
theorem test_decode_prn : decode [0b01000111, 7, 9] = .ok (.prn 7, [9]) := rfl
theorem test_decode_add : decode [0b10100000, 1, 2] = .ok (.add 1 2, []) := rfl
theorem test_decode_mul : decode [0b10100010, 1, 2] = .ok (.mul 1 2, []) := rfl
theorem test_decode_cmp : decode [0b10100111, 1, 2] = .ok (.cmp 1 2, []) := rfl
theorem test_decode_push : decode [0b01000101, 5] = .ok (.push 5, []) := rfl
theorem test_decode_pop : decode [0b01000110, 6] = .ok (.pop 6, []) := rfl
theorem test_decode_st : decode [0b10000100, 3, 2] = .ok (.st 3 2, []) := rfl
theorem test_decode_call : decode [0b01010000, 1] = .ok (.call 1, []) := rfl
theorem test_decode_ret : decode [0b00010001, 1] = .ok (.ret, [1]) := rfl
theorem test_decode_hlt : decode [0b00000001] = .ok (.hlt, []) := rfl

/-- R83: the LS-8 jump JMP is illegal here. -/
theorem test_decode_jmp_illegal : decode [0x54, 0] = .error (.illegalOpcode 0x54) := rfl

/-- R82: the operand bytes of an illegal opcode are never looked at. -/
theorem test_decode_illegal_alone : decode [0xC5] = .error (.illegalOpcode 0xC5) := rfl
theorem test_decode_missing : decode [0x82, 0] = .error (.missingOperand 0x82 2) := rfl
theorem test_decode_empty : decode [] = .error .noOpcode := rfl

/-- R74: no masking of the index; the decoder accepts the byte and the handler raises. -/
theorem test_decode_keeps_index : decode [0x47, 0x0F] = .ok (.prn 0x0F, []) := rfl

/-- No two rows of the table have one opcode. -/
theorem test_opcodes_distinct : (Mnemonic.all.map Mnemonic.opcode).Nodup := by decide

/-- R79: bits 5 and 4 of the opcode agree with alu_op and sets_pc on every row. -/
theorem test_opcode_bits : Mnemonic.all.all (fun m =>
    m.aluOp.isSome == m.opcode.getLsbD 5 && m.setsPc == m.opcode.getLsbD 4) = true := by decide

theorem test_table_word : decodeTableWord 8 0xA0 = some (.add 0 0) := by decide
/-- Every row of the table, its operand bytes 0, decodes and runs as the first instruction after reset. -/
theorem test_every_row_runs :
    [0x82, 0x47, 0xA0, 0xA2, 0xA7, 0x45, 0x46, 0x84, 0x50, 0x11, 0x01].map (fun w =>
      ((decodeTableWord 8 w).map Instr.mnemonic,
        (nextState (step (State.reset.withFetchWord 8 w))).map State.unfaulted)) =
    Mnemonic.all.map (fun m => (some m, some true)) := by decide
theorem test_table_word_wide : decodeTableWord 24 0x080382 = some (.ldi 3 8) := by decide

/-! A small state: the reset state with some registers, memory cells and pc set. -/

/-- The reset state with the registers of a list set. -/
def withRegs (l : List (Fin 8 × Byte)) (s : State) : State :=
  l.foldl (fun t c => t.setReg c.1 c.2) s

/-- Memory cells set one by one. -/
def withMem (l : List (Nat × Byte)) (s : State) : State :=
  { s with mem := l.foldl (fun m c => memWrite m c.1 c.2) s.mem }

/-- The state an instruction leaves, for a test. -/
def after (i : Instr) (s : State) : State := (nextState (exec i s)).getD s

/-- The state a step leaves, for a test. -/
def stepped (s : State) : State := (nextState (step s)).getD s

/-- Reset with registers set. -/
def rs (l : List (Fin 8 × Byte)) : State := withRegs l State.reset

/-! Instructions. -/

/-- V-L2. -/
theorem test_ldi : (after (.ldi 3 255) (rs [])).reg 3 = 255 := by decide
/-- V-L5. -/
theorem test_ldi_fault : after (.ldi 8 1) (rs []) =
    { rs [] with status := .faulted ⟨.outOfBoundsAccess, 0, some 0x82⟩ } := by decide
/-- V-P2. -/
theorem test_prn_sp : (after (.prn 7) (rs [])).out = [244] := by decide
/-- V-P5. -/
theorem test_prn_fault : (after (.prn 8) (rs [])).out = [] := by decide
/-- W3, V-A1. -/
theorem test_add_wraps : (after (.add 0 1) (rs [(0, 250), (1, 10)])).reg 0 = 4 := by decide
/-- V-A5. -/
theorem test_add_same : (after (.add 0 0) (rs [(0, 200)])).reg 0 = 144 := by decide
/-- V-A9. -/
theorem test_mul_low : (after (.mul 0 1) (rs [(0, 255), (1, 255)])).reg 0 = 1 := by decide
/-- V-A10. -/
theorem test_mul : (after (.mul 0 1) (rs [(0, 15), (1, 17)])).reg 0 = 255 := by decide
/-- V-A17. -/
theorem test_cmp_unsigned : (after (.cmp 0 1) (rs [(0, 0x80), (1, 0x7F)])).fl = 0x02 := by decide
/-- W5. -/
theorem test_cmp_less : (after (.cmp 0 1) (rs [(0, 3), (1, 9)])).fl = 0x04 := by decide
/-- V-K1. -/
theorem test_push : let t := after (.push 0) (rs [(0, 5)])
    (t.sp, memRead t.mem 0xF3, t.pc) = (0xF3, 5, 2) := by decide
/-- V-K2. -/
theorem test_push_sp : memRead (after (.push 7) (rs [])).mem 0xF3 = 0xF3 := by decide
/-- V-K6. -/
theorem test_pop : let t := after (.pop 2) (withMem [(0xF3, 5)] (rs [(7, 0xF3)]))
    (t.reg 2, t.sp, memRead t.mem 0xF3) = (5, 0xF4, 5) := by decide
/-- V-K10. -/
theorem test_pop_sp : (after (.pop 7) (withMem [(0xF3, 0x20)] (rs [(7, 0xF3)]))).sp = 0x21 := by decide
/-- V-S1. -/
theorem test_st : memRead (after (.st 3 2) (rs [(3, 0x80), (2, 5)])).mem 0x80 = 5 := by decide
/-- V-S4. -/
theorem test_st_sp : memRead (after (.st 7 1) (rs [(7, 0xF3), (1, 9)])).mem 0xF3 = 9 := by decide
/-- V-K13. -/
theorem test_call : let t := after (.call 1) { rs [(1, 11)] with pc := 6 }
    (t.pc, t.sp, memRead t.mem 0xF3) = (11, 0xF3, 8) := by decide
/-- V-K17. -/
theorem test_call_sp : let t := after (.call 7) { rs [] with pc := 6 }
    (t.pc, memRead t.mem 0xF3) = (0xF3, 8) := by decide
/-- V-K19. -/
theorem test_ret : let t := after .ret (withMem [(0xF3, 8)] (rs [(7, 0xF3)]))
    (t.pc, t.sp) = (8, 0xF4) := by decide
/-- V-K21. -/
theorem test_ret_fault : (after .ret (rs [(7, 0xFF)])).status =
    .faulted ⟨.outOfBoundsAccess, 0, some 0x11⟩ := by decide
/-- V-H3. -/
theorem test_hlt : let t := after .hlt { rs [] with fl := 4 }
    (t.status, t.pc, t.fl) = (.halted, 1, 4) := by decide

/-! Steps. -/

/-- V-D1. -/
theorem test_fetch_at_256 : (stepped { rs [] with pc := 256 }).status =
    .faulted ⟨.outOfBoundsAccess, 256, none⟩ := by decide
/-- V-D4. -/
theorem test_hlt_at_255 : let t := stepped (withMem [(255, 1)] { rs [] with pc := 255 })
    (t.status, t.pc) = (.halted, 256) := by decide
/-- V-D5. -/
theorem test_illegal_at_255 : (stepped (withMem [(255, 0xC5)] { rs [] with pc := 255 })).status =
    .faulted ⟨.illegalInstruction, 255, some 0xC5⟩ := by decide
/-- V-D7. -/
theorem test_operand_before_register :
    (stepped (withMem [(254, 0xA0), (255, 9)] { rs [] with pc := 254 })).status =
      .faulted ⟨.outOfBoundsAccess, 254, some 0xA0⟩ := by decide
/-- V-K15. -/
theorem test_call_at_254 :
    (stepped (withMem [(254, 0x50), (255, 1)] { rs [] with pc := 254 })).status =
      .faulted ⟨.outOfBoundsAccess, 254, some 0x50⟩ := by decide
/-- R245: the empty image faults at its first fetch. -/
theorem test_empty_image : (stepped State.reset).status =
    .faulted ⟨.illegalInstruction, 0, some 0x00⟩ := by decide
/-- A placed word is what the next step runs. -/
theorem test_placed_word : (stepped (State.reset.withFetchWord 24 0x080382)).reg 3 = 8 := by decide
theorem test_placed_halt : (stepped (State.reset.withFetchWord 8 0x01)).status = .halted := by decide

/-! The host's side. -/

/-- Section 2.7 of spec/95_test_vectors.md: the yielding lines of the table. -/
theorem test_image_lines : imageOfLines
    [['1','0','0','0','0','0','1','0',' ','#',' ','L','D','I',' ','R','0',',','8'],
     [' ',' ','0','1','0','0',' ','0','1','1','1',' ',' ','P','R','N'],
     ['#',' ','1','0','0','0','0','0','1','0'], ['1','0','0','0','0','0','1'],
     ['1','0','0','0','0','0','1','0','1'], [],
     ['0','0','0','0','0','0','0','1','#','H','L','T',' ','1','1','1','1']]
    = [0x82, 0x47, 0x01] := by decide
theorem test_render : (renderByte 244, renderByte 0, renderByte 72) =
    (['2','4','4'], ['0'], ['7','2']) := by decide
/-- R43: the state is readable once the core has stopped. -/
theorem test_inspect : (inspect State.reset, (inspect (after .hlt State.reset)).isSome) =
    (none, true) := by decide
/-- R44: a step requested of a Halted core does nothing; a reset starts afresh. -/
theorem test_serve : (nextState (serve .step (after .hlt State.reset)), nextState (serve .reset (after .hlt State.reset))) =
    (some (after .hlt State.reset), some State.reset) := by decide

/-! Memory. -/

theorem test_write_reset_value_unlists : memWrite (memWrite [] 5 7) 5 0 = [] := by decide
theorem test_write_order : memWrite (memWrite [] 9 1) 5 7 = [(5, 7), (9, 1)] := by decide
theorem test_wf_refuses_unsorted : Memory.wf [(9, 1), (5, 7)] = false := by decide
theorem test_wf_refuses_reset_value : Memory.wf [(5, 0)] = false := by decide
theorem test_wf_refuses_absent_address : Memory.wf [(256, 1)] = false := by decide

/-! Witnesses: for each statement with hypotheses, a state and operands that meet all of them, at the
edge of each clause's range. -/

/-- A rendering of more than one digit. -/
theorem hyp_OutputRendersDecimal : 1 < (renderByte 10).length := by decide
theorem hyp_DecodedBytesReencode : ∃ bytes i rest, decode bytes = .ok (i, rest) :=
  ⟨[0x84, 3, 2, 9], .st 3 2, [9], rfl⟩
theorem hyp_LengthIsToldByFirstByte : ∃ b0 bs i rest, decode (b0 :: bs) = .ok (i, rest) :=
  ⟨0x11, [], .ret, [], rfl⟩
theorem hyp_ThreeOperandOpcodesAreIllegal :
    (0xC0 : Byte).toNat / 64 = 3 ∧ (0xFF : Byte).toNat / 64 = 3 ∧ (0xBF : Byte).toNat / 64 ≠ 3 := by decide
theorem hyp_LoaderWritesImage : (List.replicate 256 (0x11 : Byte)).length ≤ 256 := by
  rw [List.length_replicate]
theorem hyp_OversizeImageIsRefused : 256 < (List.replicate 257 (0x11 : Byte)).length := by
  rw [List.length_replicate]; decide
theorem hyp_OversizeImageIsRefused_accepts : (List.replicate 256 (0x11 : Byte)).length = 256 := by
  rw [List.length_replicate]
theorem hyp_BootStartsRunningAtZero : ([0x01] : List Byte).length ≤ 256 := by decide
theorem hyp_ImageLineYieldsByte_comment : '#' ∉ ['1', ' '] := by decide
theorem hyp_ImageLineYieldsByte_byte : ∃ line b, lineByte line = some b ∧ 0 < 8 :=
  ⟨['1','0','0','0','0','0','1','0'], 0x82, by decide, by decide⟩

/-- LDI R0,8 with its last byte in the last cell. -/
theorem hyp_StepRunsDecodedInstruction : ∃ (s : State) (i : Instr), s.status = .running ∧
    ∀ (k : Nat) (h : k < (encode i).length),
      s.pc + k < 256 ∧ memRead s.mem (s.pc + k) = (encode i)[k] :=
  ⟨withMem [(253, 0x82), (254, 0), (255, 8)] { rs [] with pc := 253 }, .ldi 0 8, by decide, by decide⟩
theorem hyp_FetchPastMemoryFaults : ∃ s : State, s.status = .running ∧ 255 < s.pc :=
  ⟨{ rs [] with pc := 256 }, by decide⟩
theorem hyp_IllegalOpcodeFaults : ∃ s : State, s.status = .running ∧ s.pc < 256 ∧
    memRead s.mem s.pc ∉ Mnemonic.all.map Mnemonic.opcode :=
  ⟨withMem [(255, 0xC5)] { rs [] with pc := 255 }, by decide⟩
theorem hyp_MissingOperandFaults : ∃ (s : State) (m : Mnemonic), s.status = .running ∧ s.pc < 256 ∧
    decodeOpcode (memRead s.mem s.pc) = some m ∧ 255 < s.pc + (memRead s.mem s.pc).toNat / 64 :=
  ⟨withMem [(254, 0x82)] { rs [] with pc := 254 }, .ldi, by decide⟩
theorem hyp_StoppedCoreTakesNoStep_halted : ∃ s : State, s.status = .halted := ⟨after .hlt (rs []), by decide⟩
theorem hyp_StoppedCoreTakesNoStep_faulted : ∃ s : State, s.status ≠ .running ∧ s.status ≠ .halted :=
  ⟨after .ret (rs [(7, 0xFF)]), by decide⟩
theorem hyp_FaultsAreAllOrNothing : ∃ (s t : State) (r : FaultRecord), s.status = .running ∧
    step s = .next t ∧ t.status = .faulted r := ⟨State.reset, _, _, rfl, rfl, rfl⟩

theorem hyp_AddWritesSum : (0 : Byte).toNat < 8 ∧ (7 : Byte).toNat < 8 := by decide
theorem hyp_MulWritesLowProduct : (7 : Byte).toNat < 8 ∧ (7 : Byte).toNat < 8 := by decide
theorem hyp_CmpSetsExactlyOneFlag : (0 : Byte).toNat < 8 ∧ (7 : Byte).toNat < 8 := by decide
theorem hyp_StWritesCell : (7 : Byte).toNat < 8 ∧ (0 : Byte).toNat < 8 := by decide
theorem hyp_LdiLoadsImmediate : (7 : Byte).toNat < 8 := by decide
theorem hyp_PrnEmitsRegister : (7 : Byte).toNat < 8 := by decide
theorem hyp_PushWritesBelowStack : ∃ (s : State) (src : Byte), src.toNat < 8 ∧ s.x[7] ≠ 0 :=
  ⟨rs [(7, 1)], 7, by decide⟩
theorem hyp_PopReadsTopOfStack_other : ∃ (s : State) (d : Byte), d.toNat < 8 ∧ d.toNat ≠ 7 ∧ s.x[7] ≠ 255 :=
  ⟨rs [(7, 254)], 6, by decide⟩
theorem hyp_PopReadsTopOfStack_sp : ∃ s : State, memRead s.mem s.x[7].toNat ≠ 255 :=
  ⟨withMem [(255, 254)] (rs [(7, 255)]), by decide⟩
theorem hyp_CallPushesReturnAddress : ∃ (s : State) (r : Byte), r.toNat < 8 ∧ s.x[7] ≠ 0 ∧ s.pc + 2 < 256 :=
  ⟨{ rs [(7, 1)] with pc := 253 }, 7, by decide⟩
theorem hyp_RetPopsPc : ∃ s : State, s.x[7] ≠ 255 := ⟨rs [(7, 254)], by decide⟩
theorem hyp_UnnamedRegisterFaults : ∃ (i : Instr), ∃ b ∈ i.regOperands, 8 ≤ b.toNat := ⟨.st 0 8, 8, by decide⟩
theorem hyp_StackOverflowFaults : ∃ s : State, s.x[7] = 0 := ⟨rs [(7, 0)], by decide⟩
theorem hyp_CallWithoutReturnAddressFaults : ∃ s : State, 255 < s.pc + 2 := ⟨{ rs [] with pc := 254 }, by decide⟩
theorem hyp_StackUnderflowFaults_sp : ∃ (s : State) (d : Byte), d.toNat ≠ 7 ∧ s.x[7] = 255 :=
  ⟨rs [(7, 255)], 6, by decide⟩
theorem hyp_StackUnderflowFaults_popped : ∃ s : State, memRead s.mem s.x[7].toNat = 255 :=
  ⟨withMem [(0xF3, 255)] (rs [(7, 0xF3)]), by decide⟩

theorem hyp_RegistersFrame : ∃ (i : Instr) (s t : State) (r : Fin 8), exec i s = .next t ∧
    r.val ∉ writtenRegisters i := ⟨.pop 0, State.reset, _, 1, rfl, by decide⟩
theorem hyp_FlagsFrame : ∃ (i : Instr) (s t : State), exec i s = .next t ∧ ∀ a b, i ≠ .cmp a b :=
  ⟨.add 0 1, State.reset, _, rfl, by simp⟩
theorem hyp_NonStoringMemoryFrame : ∃ (i : Instr) (s t : State), exec i s = .next t ∧
    (∀ a v, i ≠ .st a v) ∧ (∀ r, i ≠ .push r) ∧ ∀ r, i ≠ .call r :=
  ⟨.pop 0, State.reset, _, rfl, by simp, by simp, by simp⟩
theorem hyp_StoringMemoryFrame_st : ∃ (s t : State) (k : Nat), exec (.st 7 0) s = .next t ∧
    ∀ r, checkReg 7 = .ok r → k ≠ (s.reg r).toNat :=
  ⟨State.reset, _, 0xF3, rfl, fun r h => by injection h with h; subst h; decide⟩
theorem hyp_StoringMemoryFrame_push : ∃ (s t : State) (k : Nat), exec (.push 0) s = .next t ∧
    k ≠ (pushAddr s).toNat := ⟨State.reset, _, 0xF4, rfl, by decide⟩
theorem hyp_StoringMemoryFrame_call : ∃ (s t : State) (k : Nat), exec (.call 0) s = .next t ∧
    k ≠ (pushAddr s).toNat := ⟨State.reset, _, 0xF2, rfl, by decide⟩
theorem hyp_OutputFrame : ∃ (i : Instr) (s t : State), exec i s = .next t ∧ ∀ r, i ≠ .prn r :=
  ⟨.hlt, State.reset, _, rfl, by simp⟩
theorem hyp_StatusFrame : ∃ (i : Instr) (s t : State), exec i s = .next t := ⟨.hlt, State.reset, _, rfl⟩
theorem hyp_PcAdvance_call : ∃ (s t : State), exec (.call 0) s = .next t ∧
    t ≠ faultedAt s .outOfBoundsAccess (some 0x50) := ⟨State.reset, _, rfl, by decide⟩
theorem hyp_PcAdvance_ret : ∃ (s t : State), exec .ret s = .next t ∧
    t ≠ faultedAt s .outOfBoundsAccess (some 0x11) := ⟨State.reset, _, rfl, by decide⟩
theorem hyp_PcAdvance_generic : ∃ (s t : State), exec (.ldi 7 0) s = .next t ∧
    t ≠ faultedAt s .outOfBoundsAccess (some 0x82) := ⟨State.reset, _, rfl, by decide⟩

theorem hyp_PushThenPopRestores : ∃ (s : State) (r : Byte), r.toNat < 8 ∧ s.x[7] ≠ 0 := ⟨rs [(7, 1)], 7, by decide⟩
theorem hyp_ReturnResumesAfterCall : ∃ (s t u : State) (r : Byte), r.toNat < 8 ∧ s.x[7] ≠ 0 ∧
    s.pc + 2 < 256 ∧ exec (.call r) s = .next t ∧ u.x[7] = t.x[7] ∧
    memRead u.mem u.x[7].toNat = memRead t.mem t.x[7].toNat :=
  ⟨State.reset, _, after (.call 1) State.reset, 1, by decide, by decide, by decide, rfl, by decide, by decide⟩
theorem hyp_LdiThenPrnEmitsValue : (0 : Byte).toNat < 8 := by decide
theorem hyp_StackDepthIsSp : ∃ (s : State) (r : Byte) (k : Nat), r.toNat < 8 ∧ k ≤ s.x[7].toNat :=
  ⟨State.reset, 0, 244, by decide⟩
theorem hyp_ReservedRegistersAreInert : ∃ (i : Instr) (r : Fin 8), (r = 5 ∨ r = 6) ∧
    ∀ b ∈ i.regOperands, b.toNat ≠ r.val := ⟨.add 7 4, 5, by decide⟩
/-- ST through R7 of R0. -/
theorem hyp_FetchSeesStoredByte_st : (7 : Byte).toNat < 8 ∧ (0 : Byte).toNat < 8 := by decide
/-- PUSH into cell 0. -/
theorem hyp_FetchSeesStoredByte_push : ∃ (s : State) (src : Byte), src.toNat < 8 ∧ s.x[7] ≠ 0 :=
  ⟨rs [(7, 1)], 7, by decide⟩
/-- CALL whose return address is 255. -/
theorem hyp_FetchSeesStoredByte_call : ∃ (s : State) (r : Byte), r.toNat < 8 ∧ s.x[7] ≠ 0 ∧
    s.pc + 2 < 256 := ⟨{ rs [(7, 1)] with pc := 253 }, 7, by decide⟩
/-- A Running core whose fetch reads the cell ST wrote, as an opcode (k = 0) and as the last operand. -/
theorem hyp_FetchSees : ∃ q r : State,
    q.mem = (after (.st 1 0) (rs [(0, 1), (1, 255)])).mem ∧ q.status = .running ∧ q.pc + 0 = 255 ∧
    r.mem = q.mem ∧ r.pc + 2 = 255 :=
  ⟨{ after (.st 1 0) (rs [(0, 1), (1, 255)]) with pc := 255 },
    { after (.st 1 0) (rs [(0, 1), (1, 255)]) with pc := 253 }, by decide⟩
/-- P4: a stored HLT is obeyed when fetched (R65). -/
theorem test_stored_halt_is_fetched :
    (stepped { after (.st 1 0) (rs [(0, 1), (1, 9)]) with pc := 9 }).status = .halted := by decide

/-- An instruction that stores. -/
theorem hyp_MemoryStaysCanonical : ∃ s t : State, s.mem.wf = true ∧ step s = .next t ∧ t.mem ≠ s.mem :=
  ⟨State.reset.withFetchWord 16 0x0745, stepped (State.reset.withFetchWord 16 0x0745), by decide, rfl, by decide⟩
/-- HLT at 255 takes pc to its last value. -/
theorem hyp_PcStaysInRange : ∃ s t : State, s.pcInRange ∧ step s = .next t ∧ t.pc = 256 :=
  ⟨withMem [(255, 1)] { rs [] with pc := 255 }, stepped (withMem [(255, 1)] { rs [] with pc := 255 }),
    (by decide : 255 ≤ 256), rfl, by decide⟩
theorem hyp_FlagsStayOneOfFour : ∃ s t : State, s.flOneOfFour ∧ step s = .next t ∧ t.fl = 0x01 :=
  ⟨State.reset.withFetchWord 24 0x0100A7, stepped (State.reset.withFetchWord 24 0x0100A7), .inl rfl, rfl, by decide⟩
theorem hyp_StoppedStatusStaysTruthful : ∃ s t : State, s.stopIsTruthful ∧ step s = .next t ∧
    t.status ≠ .running := ⟨State.reset, stepped State.reset, trivial, rfl, by decide⟩

end Sys2Proof.Tests
end

