-- ==== Sys2Proof/Proofs/Encoding.lean ====
section
/-! SUPPORT. What a decoded instruction says about its first byte, and the two statements about the
length of an instruction (spec/30_encoding.md R71, R72). -/

namespace Sys2Proof

/-- The top two bits of a byte are its quotient by 64 (R71). -/
theorem operandCount_eq_div (b0 : Byte) : operandCount b0 = b0.toNat / 64 := by
  have hb : b0.toNat < 256 := b0.isLt
  simp only [operandCount, BitVec.extractLsb_toNat, Nat.shiftRight_eq_div_pow]
  omega

theorem operandCount_opcode_le (m : Mnemonic) : operandCount m.opcode ≤ 2 := by
  cases m <;> decide

/-- The shape of an encoding, for every instruction at once. -/
theorem encodingShape (i : Instr) : Laws.EncodingShape.Statement i := by
  cases i with
  | ldi d imm8 => exact Laws.EncodingShape.ldi d imm8
  | prn s => exact Laws.EncodingShape.prn s
  | add a b => exact Laws.EncodingShape.add a b
  | mul a b => exact Laws.EncodingShape.mul a b
  | cmp a b => exact Laws.EncodingShape.cmp a b
  | push s => exact Laws.EncodingShape.push s
  | pop d => exact Laws.EncodingShape.pop d
  | st a v => exact Laws.EncodingShape.st a v
  | call t => exact Laws.EncodingShape.call t
  | ret => exact Laws.EncodingShape.ret
  | hlt => exact Laws.EncodingShape.hlt

theorem encode_length (i : Instr) : (encode i).length = 1 + operandCount i.mnemonic.opcode := by
  obtain ⟨-, -, -, hlen⟩ := encodingShape i
  exact hlen

theorem withOperand_eq_ok {get : Nat → Option Byte} {b0 : Byte} {k : Byte → Instr} {i : Instr} :
    withOperand get b0 k = .ok i ↔ ∃ b1, get 1 = some b1 ∧ k b1 = i := by
  cases h1 : get 1 <;> simp [withOperand, h1]

theorem withOperands_eq_ok {get : Nat → Option Byte} {b0 : Byte} {k : Byte → Byte → Instr}
    {i : Instr} :
    withOperands get b0 k = .ok i ↔ ∃ b1 b2, get 1 = some b1 ∧ get 2 = some b2 ∧ k b1 b2 = i := by
  cases h1 : get 1 <;> cases h2 : get 2 <;> simp [withOperands, h1, h2]

/-- Operand read yields an instruction of the row it was asked for. -/
theorem mnemonic_of_decodeOperands {get : Nat → Option Byte} {b0 : Byte} {m : Mnemonic} {i : Instr}
    (h : decodeOperands get b0 m = .ok i) : i.mnemonic = m := by
  cases m with
  | ldi | add | mul | cmp | st =>
    obtain ⟨b1, b2, -, -, rfl⟩ := withOperands_eq_ok.mp h
    rfl
  | prn | push | pop | call =>
    obtain ⟨b1, -, rfl⟩ := withOperand_eq_ok.mp h
    rfl
  | ret | hlt =>
    cases h
    rfl

/-- What decodes has its own row's opcode as first byte, and that row's operands after it. -/
theorem decodeFrom_eq_ok {get : Nat → Option Byte} {i : Instr} (h : decodeFrom get = .ok i) :
    get 0 = some i.mnemonic.opcode ∧
      decodeOperands get i.mnemonic.opcode i.mnemonic = .ok i := by
  unfold decodeFrom at h
  cases h0 : get 0 with
  | none => simp [h0] at h
  | some b0 =>
    cases hm : decodeOpcode b0 with
    | none => simp [h0, hm] at h
    | some m =>
      simp only [h0, hm] at h
      obtain rfl := opcode_of_decodeOpcode hm
      obtain rfl := mnemonic_of_decodeOperands h
      exact ⟨rfl, h⟩

/-- The list decoder is `decodeFrom` on the list, the rest being what follows the instruction. -/
theorem decode_eq_ok {bytes rest : List Byte} {i : Instr} :
    decode bytes = .ok (i, rest) ↔
      decodeFrom (fun k => bytes[k]?) = .ok i ∧ bytes.drop i.length = rest := by
  unfold decode
  cases hd : decodeFrom (fun k => bytes[k]?) with
  | error e => simp
  | ok j =>
    simp only [Except.ok.injEq, Prod.mk.injEq]
    exact and_congr_right (by rintro rfl; rfl)

/-- The first byte of what decodes is the instruction's opcode, and the rest is what follows as many
operand bytes as that byte counts. -/
theorem decode_cons_eq_ok {b0 : Byte} {bs rest : List Byte} {i : Instr}
    (h : decode (b0 :: bs) = .ok (i, rest)) :
    i.mnemonic.opcode = b0 ∧ rest = bs.drop (operandCount b0) := by
  obtain ⟨hfrom, rfl⟩ := decode_eq_ok.mp h
  obtain ⟨h0, -⟩ := decodeFrom_eq_ok hfrom
  obtain rfl : b0 = i.mnemonic.opcode := by simpa using h0
  refine ⟨rfl, ?_⟩
  rw [Instr.length, Nat.add_comm, List.drop_succ_cons]

/-- A first byte outside the opcode table is refused, whatever follows it (R82). -/
theorem decode_cons_of_illegal {b0 : Byte} (hb : decodeOpcode b0 = none) (bs : List Byte) :
    decode (b0 :: bs) = .error (.illegalOpcode b0) := by
  simp [decode, decodeFrom, hb]

/-- No row has three operand bytes, so no row has a byte whose top bits are 11 (R72). -/
theorem decodeOpcode_of_operandCount_eq_three {b0 : Byte} (hb : operandCount b0 = 3) :
    decodeOpcode b0 = none := by
  cases hm : decodeOpcode b0 with
  | none => rfl
  | some m =>
    obtain rfl := opcode_of_decodeOpcode hm
    have hle := operandCount_opcode_le m
    omega

/-- Settles O4: the first byte of what decodes is the instruction's opcode. -/
theorem lengthIsToldByFirstByte : Obligations.LengthIsToldByFirstByte := by
  intro b0 bs i rest h
  obtain ⟨rfl, hrest⟩ := decode_cons_eq_ok h
  rw [← operandCount_eq_div]
  exact ⟨rfl, encode_length i, hrest⟩

/-- Settles O5, by the bound on the operand counts of the opcode table. -/
theorem threeOperandOpcodesAreIllegal : Obligations.ThreeOperandOpcodesAreIllegal := by
  refine ⟨fun i => ?_, fun b0 bs hb => ?_⟩
  · have hle := operandCount_opcode_le i.mnemonic
    rw [encode_length]
    omega
  · rw [← operandCount_eq_div] at hb
    exact decode_cons_of_illegal (decodeOpcode_of_operandCount_eq_three hb) bs

end Sys2Proof
end

