-- ==== Sys2Proof/Proofs/ImageLine.lean ====
section
/-! SUPPORT. The digits of a text image line and the bits of the byte they make
(spec/30_encoding.md R88 to R90). -/

namespace Sys2Proof.Machine

/-- One more digit doubles the value and becomes its lowest bit, 1 for the character `1`. -/
theorem digitsValue_concat (ds : List Char) (c : Char) :
    digitsValue (ds ++ [c]) = Nat.bit (c = '1') (digitsValue ds) := by
  by_cases hc : c = '1' <;> simp [digitsValue, hc, Nat.bit]

/-- The first digit is the most significant bit: digit `k` of `n` digits is bit `n - 1 - k`. By
induction on the digits from the last, each of which doubles the value before it (R90). -/
theorem testBit_digitsValue (ds : List Char) (k : Nat) (hk : k < ds.length) :
    (digitsValue ds).testBit (ds.length - 1 - k) = decide (ds[k]? = some '1') := by
  induction ds using List.reverseRecOn with
  | nil => simp at hk
  | append_singleton ds c ih =>
    rw [digitsValue_concat]
    rcases Nat.lt_or_ge k ds.length with hlt | hge
    · have hbit : (ds ++ [c]).length - 1 - k = (ds.length - 1 - k) + 1 := by simp; omega
      rw [hbit, Nat.testBit_bit_succ, ih hlt, List.getElem?_append_left hlt]
    · obtain rfl : k = ds.length := by simp at hk; omega
      simp

/-- Text without a comment marker passes the test that `lineDigits` reads up to. -/
theorem bne_comment_of_mem {cs : List Char} (h : '#' ∉ cs) : ∀ c ∈ cs, (c != '#') = true :=
  fun _ hc => bne_iff_ne.mpr (ne_of_mem_of_not_mem hc h)

/-- A line without a comment marker is read whole (R88). -/
theorem lineDigits_of_no_comment {line : List Char} (h : '#' ∉ line) :
    lineDigits line = line.filter isDigit := by
  rw [lineDigits, List.takeWhile_eq_self_iff.mpr (bne_comment_of_mem h)]

/-- A line is read up to its first comment marker (R88). -/
theorem lineDigits_append_comment {before : List Char} (h : '#' ∉ before) (after : List Char) :
    lineDigits (before ++ '#' :: after) = before.filter isDigit := by
  rw [lineDigits, List.takeWhile_append_of_pos (bne_comment_of_mem h)]
  simp

/-- A line yields a byte when it has eight digits, and that byte is their value (R89). -/
theorem lineByte_eq_some {line : List Char} {b : Byte} :
    lineByte line = some b ↔
      (lineDigits line).length = 8 ∧ BitVec.ofNat 8 (digitsValue (lineDigits line)) = b := by
  by_cases h : (lineDigits line).length = 8 <;> simp [lineByte, h]

theorem lineByte_isSome (line : List Char) :
    (lineByte line).isSome = true ↔ (lineDigits line).length = 8 := by
  simp [Option.isSome_iff_exists, lineByte_eq_some]

/-- Bit `7 - k` of the byte a line yields is its digit `k` (R90). -/
theorem getLsbD_of_lineByte {line : List Char} {b : Byte} (h : lineByte line = some b) {k : Nat}
    (hk : k < 8) : b.getLsbD (7 - k) = decide ((lineDigits line)[k]? = some '1') := by
  obtain ⟨hlen, rfl⟩ := lineByte_eq_some.mp h
  have hbit := testBit_digitsValue (lineDigits line) k (by omega)
  rw [hlen] at hbit
  rw [BitVec.getLsbD_ofNat, hbit, decide_eq_true (by omega : 7 - k < 8), Bool.true_and]

/-- Settles O13: the digits before the comment, the count of eight, and the order of the bits. -/
theorem imageLineYieldsByte : Obligations.ImageLineYieldsByte :=
  ⟨fun _ after h => ⟨lineDigits_append_comment h after, lineDigits_of_no_comment h⟩,
    lineByte_isSome, fun _ _ h _ hk => getLsbD_of_lineByte h hk⟩

end Sys2Proof.Machine
end

