-- ==== Sys2Proof/Proofs/PcAdvance.lean ====
section
/-! SUPPORT. Where a completed instruction leaves pc (spec/40_dispatch.md R106, R109;
spec/43_stack_subroutine.md R173, R174). -/

namespace Sys2Proof.Machine

/-- Every instruction but CALL and RET retires through the generic advance (R106). -/
theorem Completed.pc_of_not_setsPc {i : Instr} {s t : State} (h : Completed i s t)
    (hm : i.mnemonic.setsPc = false) : t.pc = s.pc + 1 + operandCount i.mnemonic.opcode := by
  cases i with
  | ldi | prn =>
    obtain ⟨_, -, rfl⟩ := h
    simp [Instr.mnemonic]
  | add | mul | cmp | st =>
    obtain ⟨_, _, -, -, rfl⟩ := h
    simp [Instr.mnemonic]
  | push | pop =>
    obtain ⟨_, -, -, rfl⟩ := h
    simp [Instr.mnemonic]
  | hlt =>
    obtain rfl := h
    rfl
  | call | ret => cases hm

/-- CALL jumps to the value its register holds after the push (R173). -/
theorem Completed.pc_call {r : Byte} {s t : State} (h : Completed (.call r) s t) :
    ∃ rt, checkReg r = .ok rt ∧ t.pc = (t.reg rt).toNat := by
  obtain ⟨rt, hr, -, -, rfl⟩ := h
  exact ⟨rt, hr, rfl⟩

/-- RET jumps to the address in the cell SP addressed (R174). -/
theorem Completed.pc_ret {s t : State} (h : Completed .ret s t) :
    t.pc = (memRead s.mem (s.reg 7).toNat).toNat := by
  obtain ⟨-, rfl⟩ := h
  rfl

/-- Settles O43: an instruction that did not raise completed, and its row says which of the three
rules for pc it follows. -/
theorem pcAdvance : Obligations.PcAdvance := by
  intro i s t h hne
  have hdone : Completed i s t := (exec_cases h).resolve_left hne
  rw [← operandCount_eq_div]
  cases i with
  | call r => exact hdone.pc_call
  | ret => exact hdone.pc_ret
  | ldi | prn | add | mul | cmp | push | pop | st | hlt => exact hdone.pc_of_not_setsPc rfl

end Sys2Proof.Machine
end

