-- ==== Sys2Proof/Proofs/Compare.lean ====
section
/-! SUPPORT. Which flag a comparison sets, and where an ALU instruction completes
(spec/41_alu.md R134, R139). -/

namespace Sys2Proof.Machine

/-! The three cases of R134, one flags byte each. -/

theorem compareFlags_of_eq {a b : Byte} (h : a.toNat = b.toNat) : compareFlags a b = 0b00000001 := by
  simp [compareFlags, h]

theorem compareFlags_of_gt {a b : Byte} (h : a.toNat > b.toNat) : compareFlags a b = 0b00000010 := by
  simp [compareFlags, h, h.ne']

theorem compareFlags_of_lt {a b : Byte} (h : a.toNat < b.toNat) : compareFlags a b = 0b00000100 := by
  simp [compareFlags, h.ne, h.le]

/-- Each flags byte stands for exactly one order of the unsigned values: the three cases cover every
pair and their bytes differ (R135). -/
theorem compareFlags_iff (a b : Byte) :
    (compareFlags a b = 0b00000001 ↔ a.toNat = b.toNat) ∧
      (compareFlags a b = 0b00000010 ↔ a.toNat > b.toNat) ∧
      (compareFlags a b = 0b00000100 ↔ a.toNat < b.toNat) := by
  rcases Nat.lt_trichotomy a.toNat b.toNat with hlt | heq | hgt
  · simp [compareFlags_of_lt hlt, hlt, hlt.ne, hlt.le]
  · simp [compareFlags_of_eq heq, heq]
  · simp [compareFlags_of_gt hgt, hgt, hgt.ne', hgt.le]

/-- With both operands naming registers, the ALU applies its operation to those two registers. -/
theorem aluHandler_of_lt (op : AluOp) {a b : Byte} (s : State) (ha : a.toNat < 8)
    (hb : b.toNat < 8) :
    aluHandler op a b s = .ok (aluApply op ⟨a.toNat, ha⟩ ⟨b.toNat, hb⟩ s) := by
  simp [aluHandler, checkReg_of_lt ha, checkReg_of_lt hb]

/-- CMP completes with FL written and the generic advance over its three bytes (R139). -/
theorem exec_cmp_of_lt {a b : Byte} (s : State) (ha : a.toNat < 8) (hb : b.toNat < 8) :
    exec (.cmp a b) s =
      .next ((s.setFl (compareFlags s.x[a.toNat] s.x[b.toNat])).setPc (s.pc + 3)) := by
  rw [exec, execCmp, aluHandler_of_lt .compare s ha hb, retire_ok, advance_eq]
  rfl

/-- Settles O26, by the trichotomy of the unsigned values. -/
theorem cmpSetsExactlyOneFlag : Obligations.CmpSetsExactlyOneFlag := by
  intro s a b ha hb
  exact ⟨_, exec_cmp_of_lt s ha hb, compareFlags_iff _ _⟩

end Sys2Proof.Machine
end

