-- ==== Sys2Proof/Proofs/IllegalOpcode.lean ====
section
/-! SUPPORT. Which bytes have no row in the opcode table, and what a step does at one of them and in a
stopped core (spec/60_exceptions.md R212; spec/40_dispatch.md R103; spec/10_state.md R44). -/

namespace Sys2Proof

/-- The decoder refuses exactly the bytes outside the opcode table (R77, R82). -/
theorem decodeOpcode_eq_none_iff {b : Byte} :
    decodeOpcode b = none ↔ b ∉ Mnemonic.all.map Mnemonic.opcode := by
  simp [decodeOpcode]

/-- The numbers whose byte is an opcode are the opcodes' own values, each once: no two rows overlap. -/
theorem filter_opcode_perm :
    ((List.range 256).filter fun n =>
      (Mnemonic.all.map Mnemonic.opcode).contains (BitVec.ofNat 8 n)).Perm
      (Mnemonic.all.map fun m => m.opcode.toNat) := by
  refine (List.perm_ext_iff_of_nodup (List.nodup_range.filter _) (by decide)).mpr fun n => ?_
  simp only [List.mem_filter, List.mem_range, List.contains_iff_mem, List.mem_map]
  constructor
  · rintro ⟨hn, m, hm, hmn⟩
    exact ⟨m, hm, by rw [hmn, BitVec.toNat_ofNat, Nat.mod_eq_of_lt hn]⟩
  · rintro ⟨m, hm, rfl⟩
    exact ⟨m.opcode.isLt, m, hm, by simp⟩

/-- Eleven byte values have a row, so 245 have none (R212). -/
theorem length_filter_not_opcode :
    ((List.range 256).filter fun n =>
      !(Mnemonic.all.map Mnemonic.opcode).contains (BitVec.ofNat 8 n)).length = 245 := by
  have hsplit := List.length_eq_length_filter_add (l := List.range 256) fun n =>
    (Mnemonic.all.map Mnemonic.opcode).contains (BitVec.ofNat 8 n)
  rw [filter_opcode_perm.length_eq, List.length_range, List.length_map] at hsplit
  have hrows : Mnemonic.all.length = 11 := rfl
  omega

end Sys2Proof

namespace Sys2Proof.Machine

theorem codeByte_of_lt {s : State} {k : Nat} (h : s.pc + k < 256) :
    s.codeByte k = some (memRead s.mem (s.pc + k)) := by
  simp [State.codeByte, h]

/-- The fetch stops at an illegal opcode byte: no operand byte is looked at (R103). -/
theorem fetch_of_illegal {s : State} {b : Byte} (h0 : s.codeByte 0 = some b)
    (hb : decodeOpcode b = none) : fetch s = .error (.illegalOpcode b) := by
  simp [fetch, decodeFrom, h0, hb]

/-- The fault of a failed fetch is the whole step of a Running core. -/
theorem step_of_fetch_error {s : State} {e : DecodeError} (hs : s.status = .running)
    (hf : fetch s = .error e) : step s = .next (fetchFault s e) := by
  simp [step, hs, hf]

/-- A stopped core performs no cycle (R44). -/
theorem step_of_not_running {s : State} (hs : s.status ≠ .running) : step s = .next s := by
  rcases step_cases s with ⟨-, h⟩ | ⟨hrun, -⟩ | ⟨hrun, -⟩
  · exact h
  · exact absurd hrun hs
  · exact absurd hrun hs

theorem faultedAt_not_running (s : State) (code : FaultCode) (opcode : Option Byte) :
    (faultedAt s code opcode).status ≠ .running := by
  simp [faultedAt]

/-- An illegal opcode byte raises IllegalInstruction, recorded with the byte and its address (R212). -/
theorem step_of_illegal {s : State} {b : Byte} (hs : s.status = .running)
    (h0 : s.codeByte 0 = some b) (hb : decodeOpcode b = none) :
    step s = .next (faultedAt s .illegalInstruction (some b)) :=
  step_of_fetch_error hs (fetch_of_illegal h0 hb)

/-- Settles O17: the count by the eleven rows of the table, the fault by the fetch that stops at the opcode
byte, and the further step because the core is then stopped. -/
theorem illegalOpcodeFaults : Obligations.IllegalOpcodeFaults := by
  refine ⟨length_filter_not_opcode, fun s hs hpc hb => ⟨?_, ?_⟩⟩
  · exact step_of_illegal hs (codeByte_of_lt hpc) (decodeOpcode_eq_none_iff.mpr hb)
  · exact step_of_not_running (faultedAt_not_running s _ _)

end Sys2Proof.Machine
end

