-- ==== Sys2Proof/Proofs/LoaderImage.lean ====
section
/-! SUPPORT. What each cell holds after bytes are written at increasing addresses, and when the loader
accepts an image (spec/70_reset_and_hazards.md R243, R244). -/

namespace Sys2Proof.Machine

theorem writeBytes_cons_of_lt {a : Nat} (b : Byte) (bs : List Byte) (m : Memory) (h : a < 256) :
    writeBytes a (b :: bs) m = writeBytes (a + 1) bs (memWrite m a b) := by
  simp [writeBytes, h]

/-- An address outside the written range keeps its byte. -/
theorem memRead_writeBytes_of_outside {a k : Nat} {bs : List Byte} (m : Memory)
    (hfit : a + bs.length ≤ 256) (hk : k < a ∨ a + bs.length ≤ k) :
    memRead (writeBytes a bs m) k = memRead m k := by
  induction bs generalizing a m with
  | nil => rfl
  | cons b bs ih =>
    rw [List.length_cons] at hfit hk
    have hne : a ≠ k := by omega
    rw [writeBytes_cons_of_lt b bs m (by omega), ih _ (by omega) (by omega),
      memRead_memWrite_of_ne m b hne]

/-- Byte `k` of the list stands `k` cells after the first address. The first byte survives because the
rest is written above it. -/
theorem memRead_writeBytes_of_inside {a k : Nat} {bs : List Byte} (m : Memory)
    (hfit : a + bs.length ≤ 256) (hk : k < bs.length) :
    memRead (writeBytes a bs m) (a + k) = bs[k] := by
  induction bs generalizing a k m with
  | nil => exact absurd hk (Nat.not_lt_zero k)
  | cons b bs ih =>
    rw [List.length_cons] at hfit
    rw [writeBytes_cons_of_lt b bs m (by omega)]
    cases k with
    | zero =>
      calc memRead (writeBytes (a + 1) bs (memWrite m a b)) a
        _ = memRead (memWrite m a b) a :=
          memRead_writeBytes_of_outside _ (by omega) (Or.inl a.lt_succ_self)
        _ = b := memRead_memWrite_same m a b
    | succ k =>
      have haddr : a + (k + 1) = a + 1 + k := by omega
      rw [haddr]
      exact ih _ (by omega) (Nat.lt_of_succ_lt_succ hk)

/-- The loader accepts an image that fits in memory, and changes memory and the status only. -/
theorem loadImage_of_le {image : List Byte} (s : State) (h : image.length ≤ 256) :
    loadImage image s = .next { s with mem := writeBytes 0 image s.mem, status := .running } := by
  simp [loadImage, h]

/-- Settles O10: an accepted image is written from address 0, so its cells are those below its length. -/
theorem loaderWritesImage : Obligations.LoaderWritesImage := by
  intro image s hlen
  have hfit : 0 + image.length ≤ 256 := by omega
  refine ⟨_, loadImage_of_le s hlen, fun k hk => ?cells, fun k hk => ?frame⟩
  case cells => simpa using memRead_writeBytes_of_inside s.mem hfit hk
  case frame => exact memRead_writeBytes_of_outside s.mem hfit (Or.inr (by omega))

end Sys2Proof.Machine
end

