-- ==== Sys2Proof/Proofs/RoundTrip.lean ====
section
/-! SUPPORT. The decoder reads an instruction exactly where that instruction's encoding stands, so
decoding and encoding are inverse (spec/30_encoding.md sections 1 and 3), and which bytes the opcode
table holds. -/

namespace Sys2Proof

/-- The source of bytes `get` holds the list at offset 0. -/
def Reads (get : Nat → Option Byte) (bytes : List Byte) : Prop :=
  ∀ (k : Nat) (h : k < bytes.length), get k = some bytes[k]

@[simp] theorem reads_nil (get : Nat → Option Byte) : Reads get [] :=
  fun k h => absurd h (Nat.not_lt_zero k)

@[simp] theorem reads_cons {get : Nat → Option Byte} {b : Byte} {bs : List Byte} :
    Reads get (b :: bs) ↔ get 0 = some b ∧ Reads (fun k => get (k + 1)) bs := by
  constructor
  · exact fun h => ⟨h 0 (Nat.zero_lt_succ _), fun k hk => h (k + 1) (Nat.succ_lt_succ hk)⟩
  · rintro ⟨h0, hs⟩ (_ | k) hk
    · exact h0
    · exact hs k (Nat.lt_of_succ_lt_succ hk)

/-- A list of bytes holds another one at offset 0 when it is that one followed by the rest. -/
theorem reads_getElem?_iff {l bytes : List Byte} :
    Reads (fun k => bytes[k]?) l ↔ l ++ bytes.drop l.length = bytes := by
  induction l generalizing bytes with
  | nil => simp
  | cons b l ih =>
    cases bytes with
    | nil => simp
    | cons c bytes => simp [ih, eq_comm]

/-- A legal opcode byte hands over to the operand read of its row. -/
theorem decodeFrom_of_opcode {get : Nat → Option Byte} {m : Mnemonic}
    (h0 : get 0 = some m.opcode) : decodeFrom get = decodeOperands get m.opcode m := by
  simp [decodeFrom, h0, decodeOpcode_opcode]

/-- The operand read of an instruction's row answers it exactly where its operand bytes stand. -/
theorem decodeOperands_eq_ok_iff {get : Nat → Option Byte} {b0 : Byte} {i : Instr} :
    decodeOperands get b0 i.mnemonic = .ok i ↔
      Reads (fun k => get (k + 1)) (encode i).tail := by
  cases i with
  | ldi | add | mul | cmp | st =>
    simp only [Instr.mnemonic, decodeOperands, withOperands_eq_ok]
    simp [encode]
  | prn | push | pop | call =>
    simp only [Instr.mnemonic, decodeOperands, withOperand_eq_ok]
    simp [encode]
  | ret | hlt => simp [Instr.mnemonic, decodeOperands, encode]

theorem encode_eq_cons (i : Instr) : encode i = i.mnemonic.opcode :: (encode i).tail := by
  cases i <;> rfl

/-- The decoder reads an instruction exactly where its encoding stands. -/
theorem decodeFrom_eq_ok_iff {get : Nat → Option Byte} {i : Instr} :
    decodeFrom get = .ok i ↔ Reads get (encode i) := by
  rw [encode_eq_cons, reads_cons]
  constructor
  · intro h
    obtain ⟨h0, hops⟩ := decodeFrom_eq_ok h
    exact ⟨h0, decodeOperands_eq_ok_iff.mp hops⟩
  · rintro ⟨h0, hops⟩
    rw [decodeFrom_of_opcode h0]
    exact decodeOperands_eq_ok_iff.mpr hops

/-- A list decodes to an instruction and a rest exactly when it is the encoding followed by the rest. -/
theorem decode_eq_ok_iff_append {bytes rest : List Byte} {i : Instr} :
    decode bytes = .ok (i, rest) ↔ encode i ++ rest = bytes := by
  obtain ⟨-, -, -, hlen⟩ := encodingShape i
  rw [decode_eq_ok, decodeFrom_eq_ok_iff, reads_getElem?_iff, ← hlen]
  constructor
  · rintro ⟨h, rfl⟩
    exact h
  · rintro rfl
    simp

/-- Settles O1: an encoding and what follows it is such a list. -/
theorem decodeEncodeRoundTrip : Obligations.DecodeEncodeRoundTrip :=
  fun _ _ => decode_eq_ok_iff_append.mpr rfl

/-- Settles O2, by the same characterisation read from left to right. -/
theorem decodedBytesReencode : Obligations.DecodedBytesReencode :=
  fun _ _ _ h => decode_eq_ok_iff_append.mp h

/-- Settles O3: each word is the encoding of its instruction. -/
theorem specWordsDecode : Obligations.SpecWordsDecode :=
  ⟨decodeEncodeRoundTrip (.ldi 0 8) [], decodeEncodeRoundTrip (.prn 7) [],
    decodeEncodeRoundTrip (.add 0 1) [], decodeEncodeRoundTrip (.mul 3 2) [],
    decodeEncodeRoundTrip (.cmp 0 4) [], decodeEncodeRoundTrip (.push 0) [],
    decodeEncodeRoundTrip (.pop 2) [], decodeEncodeRoundTrip (.st 3 2) [],
    decodeEncodeRoundTrip (.call 1) [], decodeEncodeRoundTrip .ret [],
    decodeEncodeRoundTrip .hlt []⟩

/-- Settles O6: the listed bytes are the opcodes of the table's rows in another order. -/
theorem opcodeMapIsExact : Obligations.OpcodeMapIsExact := by
  intro b0
  have hperm : (Mnemonic.all.map Mnemonic.opcode).Perm
      [0x01, 0x11, 0x45, 0x46, 0x47, 0x50, 0x82, 0x84, 0xA0, 0xA2, 0xA7] := by decide
  rw [← hperm.mem_iff, Option.isSome_iff_ne_none, Ne, decodeOpcode_eq_none_iff, not_not]

/-- The record of a row's opcode byte (R76). -/
theorem opcodeInfo_opcode (m : Mnemonic) :
    opcodeInfo m.opcode =
      some ⟨m, operandCount m.opcode, 1 + operandCount m.opcode, m.aluOp, m.setsPc⟩ := by
  simp [opcodeInfo, decodeOpcode_opcode]

/-- A byte outside the table has no record. -/
theorem opcodeInfo_of_illegal {b : Byte} (h : b ∉ Mnemonic.all.map Mnemonic.opcode) :
    opcodeInfo b = none := by
  simp [opcodeInfo, decodeOpcode_eq_none_iff.mpr h]

/-- Settles O7: the legal bytes by the rows they are the opcodes of, the others by their absence from
the table. -/
theorem decoderOutputTable : Obligations.DecoderOutputTable := by
  refine ⟨opcodeInfo_opcode .ldi, opcodeInfo_opcode .prn, opcodeInfo_opcode .add,
    opcodeInfo_opcode .mul, opcodeInfo_opcode .cmp, opcodeInfo_opcode .push, opcodeInfo_opcode .pop,
    opcodeInfo_opcode .st, opcodeInfo_opcode .call, opcodeInfo_opcode .ret, opcodeInfo_opcode .hlt,
    ?_, ?_, ?_, ?_, ?_, ?_, ?_, ?_⟩
  all_goals exact opcodeInfo_of_illegal (by decide)

end Sys2Proof
end

