-- ==== Sys2Proof/Proofs/Fetch.lean ====
section
/-! SUPPORT. What a step of a Running core makes of the bytes at pc: no opcode, an illegal one, a legal
one without its operand bytes, or an instruction (spec/40_dispatch.md R102 to R105). -/

namespace Sys2Proof

theorem withOperand_eq_error {get : Nat → Option Byte} {b0 : Byte} {k : Byte → Instr}
    {e : DecodeError} (h : withOperand get b0 k = .error e) :
    get 1 = none ∧ e = .missingOperand b0 1 := by
  cases h1 : get 1 <;> simp_all [withOperand]

theorem withOperands_eq_error {get : Nat → Option Byte} {b0 : Byte} {k : Byte → Byte → Instr}
    {e : DecodeError} (h : withOperands get b0 k = .error e) :
    (get 1 = none ∧ e = .missingOperand b0 1) ∨ (get 2 = none ∧ e = .missingOperand b0 2) := by
  cases h1 : get 1 <;> cases h2 : get 2 <;> simp_all [withOperands]

/-- The operand read fails only for want of one of the operand bytes the opcode declares (R104). -/
theorem decodeOperands_eq_error {get : Nat → Option Byte} {b0 : Byte} {m : Mnemonic}
    {e : DecodeError} (h : decodeOperands get b0 m = .error e) :
    ∃ k ≤ operandCount m.opcode, get k = none ∧ e = .missingOperand b0 k := by
  cases m with
  | ldi | add | mul | cmp | st =>
    rcases withOperands_eq_error h with ⟨h1, rfl⟩ | ⟨h2, rfl⟩
    · exact ⟨1, by simp, h1, rfl⟩
    · exact ⟨2, by simp, h2, rfl⟩
  | prn | push | pop | call =>
    obtain ⟨h1, rfl⟩ := withOperand_eq_error h
    exact ⟨1, by simp, h1, rfl⟩
  | ret | hlt => cases h

end Sys2Proof

namespace Sys2Proof.Machine

theorem codeByte_eq_none_iff {s : State} {k : Nat} : s.codeByte k = none ↔ 256 ≤ s.pc + k := by
  rw [State.codeByte, ite_eq_right_iff]
  simp

theorem step_of_fetch_ok {s : State} {i : Instr} (hs : s.status = .running)
    (hf : fetch s = .ok i) : step s = exec i s := by
  simp [step, hs, hf]

/-- A fetch past the last cell raises OutOfBoundsAccess with no opcode byte (R102). -/
theorem step_of_no_opcode {s : State} (hs : s.status = .running) (h0 : s.codeByte 0 = none) :
    step s = .next (faultedAt s .outOfBoundsAccess none) :=
  step_of_fetch_error (e := .noOpcode) hs (by simp [fetch, decodeFrom, h0])

/-- A legal opcode byte whose operand bytes run past memory raises OutOfBoundsAccess (R104). -/
theorem step_of_operands_past {s : State} {m : Mnemonic} (hs : s.status = .running)
    (h0 : s.codeByte 0 = some m.opcode) (hp : 256 ≤ s.pc + operandCount m.opcode) :
    step s = .next (faultedAt s .outOfBoundsAccess (some m.opcode)) := by
  cases hf : fetch s with
  | ok i =>
    obtain ⟨hi, hin⟩ := fetch_ok hf
    rw [hi, Option.some_inj] at h0
    rw [h0] at hin
    omega
  | error e =>
    obtain ⟨k, -, -, rfl⟩ := decodeOperands_eq_error ((decodeFrom_of_opcode h0).symm.trans hf)
    exact step_of_fetch_error hs hf

/-- A legal opcode byte whose operand bytes lie in memory runs an instruction of its row (R105). -/
theorem step_of_operands_in {s : State} {m : Mnemonic} (hs : s.status = .running)
    (h0 : s.codeByte 0 = some m.opcode) (hp : s.pc + operandCount m.opcode < 256) :
    ∃ i, i.mnemonic = m ∧ fetch s = .ok i ∧ step s = exec i s := by
  have hops : fetch s = decodeOperands s.codeByte m.opcode m := decodeFrom_of_opcode h0
  cases hf : fetch s with
  | ok i => exact ⟨i, mnemonic_of_decodeOperands (hops.symm.trans hf), rfl, step_of_fetch_ok hs hf⟩
  | error e =>
    obtain ⟨k, hk, hnone, -⟩ := decodeOperands_eq_error (hops.symm.trans hf)
    rw [codeByte_eq_none_iff] at hnone
    omega

/-- Settles O15: the source of bytes at pc holds the encoding, so the fetch answers the instruction. -/
theorem stepRunsDecodedInstruction : Obligations.StepRunsDecodedInstruction := by
  intro s i hs hbytes
  have hreads : Reads s.codeByte (encode i) := fun k hk => by
    obtain ⟨hin, hbyte⟩ := hbytes k hk
    rw [codeByte_of_lt hin, hbyte]
  exact step_of_fetch_ok hs (decodeFrom_eq_ok_iff.mpr hreads)

/-- Settles O16: there is no code byte at such a pc. -/
theorem fetchPastMemoryFaults : Obligations.FetchPastMemoryFaults :=
  fun _ hs hpc => step_of_no_opcode hs (codeByte_eq_none_iff.mpr hpc)

/-- Settles O18, by the operand read that runs past memory. -/
theorem missingOperandFaults : Obligations.MissingOperandFaults := by
  intro s m hs hpc hm hpast
  have h0 : s.codeByte 0 = some (memRead s.mem s.pc) := codeByte_of_lt hpc
  rw [← operandCount_eq_div] at hpast
  rw [← opcode_of_decodeOpcode hm] at h0 hpast ⊢
  exact step_of_operands_past hs h0 hpast

/-- Settles O19: a stopped core performs no cycle. -/
theorem stoppedCoreTakesNoStep : Obligations.StoppedCoreTakesNoStep :=
  fun _ hs => step_of_not_running hs

end Sys2Proof.Machine
end

