-- ==== Sys2Proof/Proofs/Completion.lean ====
section
/-! SUPPORT. An instruction completes exactly where `Completed` says, and raises OutOfBoundsAccess
everywhere else. What each instruction leaves where it completes (spec/41_alu.md to spec/44_halt.md). -/

namespace Sys2Proof.Machine

theorem retire_answers (m : Mnemonic) (s : State) (r : Except Fatal State) :
    ∃ t, retire m s r = .next t := by
  cases r with
  | error e => exact ⟨_, retire_error m s e⟩
  | ok u => exact ⟨_, retire_ok m s u⟩

/-- Every instruction ends in a retirement, so it answers a next state. -/
theorem exec_answers (i : Instr) (s : State) : ∃ t, exec i s = .next t := by
  cases i with
  | hlt => exact retire_answers .hlt s (.ok s.halt)
  | ldi | prn | add | mul | cmp | push | pop | st | call | ret => exact retire_answers _ _ _

theorem step_answers (s : State) : ∃ t, step s = .next t := by
  rcases step_cases s with ⟨-, h⟩ | ⟨-, e, -, h⟩ | ⟨-, i, -, h⟩
  · exact ⟨_, h⟩
  · exact ⟨_, h⟩
  · exact h ▸ exec_answers i s

/-- Where an instruction's conditions hold, it completes: the converse of `exec_cases`. -/
theorem exec_of_completed {i : Instr} {s t : State} (h : Completed i s t) : exec i s = .next t := by
  cases i with
  | ldi | prn =>
    obtain ⟨r, hr, rfl⟩ := h
    simp [exec, execLdi, execPrn, hr, advance_eq, Mnemonic.setsPc, immediate]
  | add | mul | cmp | st =>
    obtain ⟨ra, rb, ha, hb, rfl⟩ := h
    simp [exec, execAdd, execMul, execCmp, execSt, aluHandler, aluApply, ha, hb, advance_eq,
      Mnemonic.setsPc]
  | push =>
    obtain ⟨r, hr, hsp, rfl⟩ := h
    simp [exec, execPush, hr, stackPush_of_ne hsp, advance_eq, Mnemonic.setsPc]
  | pop =>
    obtain ⟨r, hr, hsp, rfl⟩ := h
    simp [exec, execPop, hr, spIncrement_of_ne hsp, advance_eq, Mnemonic.setsPc]
  | call =>
    obtain ⟨r, hr, hsp, hpc, rfl⟩ := h
    simp [exec, execCall, hr, spDecrement_of_ne hsp, returnAddress_of_lt hpc, stackPush_of_ne hsp,
      advance_eq, Mnemonic.setsPc]
  | ret =>
    obtain ⟨hsp, rfl⟩ := h
    simp [exec, execRet, spIncrement_of_ne hsp, advance_eq, Mnemonic.setsPc]
  | hlt =>
    obtain rfl := h
    simp [exec, execHlt, advance_eq, Mnemonic.setsPc]

/-- Where they do not hold, it raises OutOfBoundsAccess. -/
theorem exec_of_not_completed {i : Instr} {s : State} (h : ∀ t, ¬ Completed i s t) :
    exec i s = .next (faultedAt s .outOfBoundsAccess (some i.mnemonic.opcode)) := by
  obtain ⟨t, ht⟩ := exec_answers i s
  rw [ht, (exec_cases ht).resolve_right (h t)]

/-- Settles O21. -/
theorem everyStepAnswers : Obligations.EveryStepAnswers := ⟨exec_answers, step_answers⟩

/-! Each instruction where it completes. -/

/-- Settles O22. -/
theorem ldiLoadsImmediate : Obligations.LdiLoadsImmediate :=
  fun _ _ _ hd => exec_of_completed ⟨_, checkReg_of_lt hd, rfl⟩

/-- Settles O23. -/
theorem prnEmitsRegister : Obligations.PrnEmitsRegister :=
  fun _ _ hs => exec_of_completed ⟨_, checkReg_of_lt hs, rfl⟩

/-- Settles O24: the sum is the ALU's. -/
theorem addWritesSum : Obligations.AddWritesSum :=
  fun _ _ _ ha hb => ⟨_, aluSum_toNat _ _,
    exec_of_completed ⟨_, _, checkReg_of_lt ha, checkReg_of_lt hb, rfl⟩⟩

/-- Settles O25: the product is the ALU's. -/
theorem mulWritesLowProduct : Obligations.MulWritesLowProduct :=
  fun _ _ _ ha hb => ⟨_, aluProduct_toNat _ _,
    exec_of_completed ⟨_, _, checkReg_of_lt ha, checkReg_of_lt hb, rfl⟩⟩

/-- What a store leaves at every address. -/
theorem memRead_store (s : State) (a v : Byte) (k : Nat) :
    memRead (s.store a v).mem k = if k = a.toNat then v else memRead s.mem k := by
  simp only [store_mem, memRead_memWrite, @eq_comm _ k]

/-- Settles O27, by the read after a write. -/
theorem stWritesCell : Obligations.StWritesCell :=
  fun _ _ _ ha hv => ⟨_,
    exec_of_completed ⟨_, _, checkReg_of_lt ha, checkReg_of_lt hv, rfl⟩, rfl, memRead_store _ _ _⟩

/-- Settles O28: the cell is the one below the stack pointer, since SP is not 0. -/
theorem pushWritesBelowStack : Obligations.PushWritesBelowStack := by
  intro s src hsrc hsp
  refine ⟨_, exec_of_completed ⟨_, checkReg_of_lt hsrc, hsp, rfl⟩, rfl, fun k => ?_⟩
  exact pushAddr_toNat hsp ▸ memRead_store (s.setSp (pushAddr s)) _ _ k

/-- Of two writes to one register the later stands. -/
@[simp] theorem setReg_setReg (s : State) (i : Fin 8) (v w : Byte) :
    (s.setReg i v).setReg i w = s.setReg i w := by
  simp [State.setReg]

/-- Settles O29: SP is read for its increment after the register is written. -/
theorem popReadsTopOfStack : Obligations.PopReadsTopOfStack := by
  constructor
  · intro s d hd hd7 hsp
    have hkeep : (s.setReg ⟨d.toNat, hd⟩ (stackTop s)).sp = s.sp :=
      sp_setReg_of_ne s _ fun h => hd7 (congrArg Fin.val h)
    exact exec_of_completed ⟨_, checkReg_of_lt hd, hkeep ▸ hsp, by rw [hkeep]; rfl⟩
  · intro s htop
    have hsp : (s.setReg 7 (stackTop s)).sp = stackTop s := reg_setReg_same s 7 _
    refine exec_of_completed ⟨7, rfl, hsp.trans_ne htop, ?_⟩
    rw [hsp, State.setSp, Config.spIndex_eq, setReg_setReg]
    rfl

/-- Settles O30. -/
theorem callPushesReturnAddress : Obligations.CallPushesReturnAddress := by
  intro s target ht hsp hpc
  refine ⟨_, exec_of_completed ⟨_, checkReg_of_lt ht, hsp, hpc, rfl⟩, rfl, fun k => ?_⟩
  have hret : (BitVec.ofNat 8 (s.pc + 2)).toNat = s.pc + 2 := Nat.mod_eq_of_lt hpc
  have hread := memRead_store (s.setSp (pushAddr s)) (pushAddr s) (BitVec.ofNat 8 (s.pc + 2)) k
  rw [pushAddr_toNat hsp] at hread
  rw [setPc_mem, hread, apply_ite BitVec.toNat, hret]
  rfl

/-- Settles O31. -/
theorem retPopsPc : Obligations.RetPopsPc := fun _ hsp => exec_of_completed ⟨hsp, rfl⟩

/-- Settles O32: the core is then stopped. -/
theorem hltHalts : Obligations.HltHalts :=
  fun _ => ⟨exec_of_completed (i := .hlt) rfl, step_of_not_running (by simp)⟩

/-- Settles O46: PRN reads the register LDI wrote. -/
theorem ldiThenPrnEmitsValue : Obligations.LdiThenPrnEmitsValue := by
  intro s d imm8 hd
  exact ⟨_, _, ldiLoadsImmediate s d imm8 hd, prnEmitsRegister _ d hd, by simp⟩

/-! Where each instruction raises. -/

theorem lt_of_checkReg {b : Byte} {r : Fin 8} (h : checkReg b = .ok r) : b.toNat < 8 :=
  checkReg_val h ▸ r.isLt

/-- An instruction completes only if each of its register operands names a register. -/
theorem Completed.operand_lt {i : Instr} {s t : State} (h : Completed i s t) :
    ∀ b ∈ i.regOperands, b.toNat < 8 := by
  cases i with
  | ldi | prn | push | pop | call =>
    obtain ⟨_, hr, -⟩ := h
    simpa [Instr.regOperands] using lt_of_checkReg hr
  | add | mul | cmp | st =>
    obtain ⟨_, _, ha, hb, -⟩ := h
    simpa [Instr.regOperands] using And.intro (lt_of_checkReg ha) (lt_of_checkReg hb)
  | ret | hlt => simp [Instr.regOperands]

/-- Settles O33. -/
theorem unnamedRegisterFaults : Obligations.UnnamedRegisterFaults := by
  rintro i s ⟨b, hb, hge⟩
  exact exec_of_not_completed fun t h => Nat.not_lt.mpr hge (h.operand_lt b hb)

/-- Settles O34: neither instruction completes with SP at 0. -/
theorem stackOverflowFaults : Obligations.StackOverflowFaults := by
  intro s r hsp
  constructor
  · exact exec_of_not_completed (i := .push r) fun t ⟨_, _, hne, _⟩ => hne hsp
  · exact exec_of_not_completed (i := .call r) fun t ⟨_, _, hne, _⟩ => hne hsp

/-- Settles O35: CALL completes only with a return address that fits a cell. -/
theorem callWithoutReturnAddressFaults : Obligations.CallWithoutReturnAddressFaults := by
  intro s r hpc
  exact exec_of_not_completed (i := .call r) fun t ⟨_, _, _, hlt, _⟩ => by omega

/-- Settles O36: POP completes only if the register it wrote leaves SP below 255. -/
theorem stackUnderflowFaults : Obligations.StackUnderflowFaults := by
  refine ⟨fun s hsp => ?ret, fun s d hd7 hsp => ?pop, fun s htop => ?popSp⟩
  case ret => exact exec_of_not_completed (i := .ret) fun t ⟨hne, _⟩ => hne hsp
  case pop =>
    refine exec_of_not_completed (i := .pop d) fun t ⟨rd, hrd, hne, _⟩ => hne ?_
    have hrd7 : rd ≠ Config.spIndex := fun h => hd7 (by rw [← checkReg_val hrd, h]; rfl)
    rw [sp_setReg_of_ne s _ hrd7]
    exact hsp
  case popSp =>
    refine exec_of_not_completed (i := .pop 7) fun t ⟨rd, hrd, hne, _⟩ => hne ?_
    have hval : rd.val = 7 := checkReg_val hrd
    obtain rfl : rd = 7 := Fin.ext hval
    exact (reg_setReg_same s 7 _).trans htop

end Sys2Proof.Machine
end

