-- ==== Sys2Proof/Proofs/Frames.lean ====
section
/-! SUPPORT. What an instruction leaves unchanged, field by field (spec/10_state.md sections 2, 4 and 6;
spec/20_memory.md section 1). -/

namespace Sys2Proof.Machine

section
variable (s : State)

@[simp] theorem reg_setFl (v : Byte) (i : Fin 8) : (s.setFl v).reg i = s.reg i := rfl
@[simp] theorem reg_emit (v : Byte) (i : Fin 8) : (s.emit v).reg i = s.reg i := rfl
@[simp] theorem reg_halt (i : Fin 8) : s.halt.reg i = s.reg i := rfl
@[simp] theorem reg_faultedAt (code : FaultCode) (opcode : Option Byte) (i : Fin 8) :
    (faultedAt s code opcode).reg i = s.reg i := rfl

end

/-- Moving the stack pointer leaves the other registers alone. -/
theorem reg_setSp_of_ne (s : State) (v : Byte) {r : Fin 8} (h : r.val ≠ 7) :
    (s.setSp v).reg r = s.reg r :=
  reg_setReg_of_ne s v fun e => h (congrArg Fin.val e.symm)

/-- An operand byte other than a register's number names another register. -/
theorem ne_of_checkReg {b : Byte} {rd r : Fin 8} (h : checkReg b = .ok rd) (hr : r.val ≠ b.toNat) :
    rd ≠ r :=
  fun e => hr (e ▸ checkReg_val h)

/-- A completed instruction writes no register outside its row of the table of R27. -/
theorem Completed.reg_eq {i : Instr} {s t : State} (h : Completed i s t) {r : Fin 8}
    (hr : r.val ∉ writtenRegisters i) : t.reg r = s.reg r := by
  cases i with
  | ldi =>
    obtain ⟨rd, hd, rfl⟩ := h
    simp only [writtenRegisters, List.mem_singleton] at hr
    exact reg_setReg_of_ne s _ (ne_of_checkReg hd hr)
  | add | mul =>
    obtain ⟨ra, _, ha, -, rfl⟩ := h
    simp only [writtenRegisters, List.mem_singleton] at hr
    exact reg_setReg_of_ne s _ (ne_of_checkReg ha hr)
  | pop =>
    obtain ⟨rd, hd, -, rfl⟩ := h
    simp only [writtenRegisters, List.mem_cons, List.not_mem_nil, or_false, not_or] at hr
    obtain ⟨hrd, hr7⟩ := hr
    rw [reg_setPc, reg_setSp_of_ne _ _ hr7, reg_setReg_of_ne s _ (ne_of_checkReg hd hrd)]
  | push =>
    obtain ⟨_, -, -, rfl⟩ := h
    exact reg_setSp_of_ne s _ (List.ne_of_not_mem_cons hr)
  | call =>
    obtain ⟨_, -, -, -, rfl⟩ := h
    exact reg_setSp_of_ne s _ (List.ne_of_not_mem_cons hr)
  | ret =>
    obtain ⟨-, rfl⟩ := h
    exact reg_setSp_of_ne s _ (List.ne_of_not_mem_cons hr)
  | cmp | st =>
    obtain ⟨_, _, -, -, rfl⟩ := h
    simp
  | prn =>
    obtain ⟨_, -, rfl⟩ := h
    simp
  | hlt =>
    obtain rfl := h
    simp

/-- A completed instruction writes FL, memory, the output and the status only where that is its
function. -/
theorem Completed.frame {i : Instr} {s t : State} (h : Completed i s t) :
    ((∀ a b, i ≠ .cmp a b) → t.fl = s.fl) ∧
      ((∀ a v, i ≠ .st a v) → (∀ r, i ≠ .push r) → (∀ r, i ≠ .call r) → t.mem = s.mem) ∧
      ((∀ r, i ≠ .prn r) → t.out = s.out) ∧
      (i ≠ .hlt → t.status = s.status) := by
  cases i with
  | ldi | prn =>
    obtain ⟨_, -, rfl⟩ := h
    simp
  | add | mul | cmp | st =>
    obtain ⟨_, _, -, -, rfl⟩ := h
    simp
  | push | pop =>
    obtain ⟨_, -, -, rfl⟩ := h
    simp
  | call =>
    obtain ⟨_, -, -, -, rfl⟩ := h
    simp
  | ret =>
    obtain ⟨-, rfl⟩ := h
    simp
  | hlt =>
    obtain rfl := h
    simp

/-- A completed instruction appends one value to the output if it is PRN, and none otherwise. -/
theorem Completed.out_append {i : Instr} {s t : State} (h : Completed i s t) :
    ∃ tail, t.out = s.out ++ tail ∧ tail.length ≤ 1 := by
  by_cases hp : ∃ r, i = .prn r
  · obtain ⟨r, rfl⟩ := hp
    obtain ⟨rs, -, rfl⟩ := h
    exact ⟨[s.reg rs], rfl, le_rfl⟩
  · obtain ⟨-, -, hout, -⟩ := h.frame
    exact ⟨[], by simp [hout (not_exists.mp hp)], Nat.zero_le _⟩

/-- A completed HLT is Halted; any other completed instruction has left the status alone. -/
theorem Completed.status_cases {i : Instr} {s t : State} (h : Completed i s t) :
    (i ≠ .hlt ∧ t.status = s.status) ∨ (i = .hlt ∧ t.status = .halted) := by
  by_cases hi : i = .hlt
  · subst hi
    obtain rfl := h
    exact .inr ⟨rfl, rfl⟩
  · obtain ⟨-, -, -, hstatus⟩ := h.frame
    exact .inl ⟨hi, hstatus hi⟩

/-- Settles O37: a fault writes no register, a completion those of its row. -/
theorem registersFrame : Obligations.RegistersFrame := by
  intro i s t r h hr
  rcases exec_cases h with rfl | hdone
  · rfl
  · exact hdone.reg_eq hr

/-- Settles O38. -/
theorem flagsFrame : Obligations.FlagsFrame := by
  intro i s t h hcmp
  rcases exec_cases h with rfl | hdone
  · rfl
  · obtain ⟨hfl, -, -, -⟩ := hdone.frame
    exact hfl hcmp

/-- Settles O39. -/
theorem nonStoringMemoryFrame : Obligations.NonStoringMemoryFrame := by
  intro i s t h hst hpush hcall k
  rcases exec_cases h with rfl | hdone
  · rfl
  · obtain ⟨-, hmem, -, -⟩ := hdone.frame
    rw [hmem hst hpush hcall]

/-- A store leaves every other address alone. -/
theorem memRead_store_of_ne (s : State) {a : Byte} (v : Byte) {k : Nat} (h : k ≠ a.toNat) :
    memRead (s.store a v).mem k = memRead s.mem k :=
  memRead_memWrite_of_ne s.mem v h.symm

/-- Settles O40: where the instruction completes, its one store is at the excluded address. -/
theorem storingMemoryFrame : Obligations.StoringMemoryFrame := by
  refine ⟨fun a v s t h k hk => ?st, fun r s t h k hk => ?push, fun r s t h k hk => ?call⟩
  case st =>
    rcases exec_cases h with rfl | ⟨ra, rv, ha, -, rfl⟩
    · rfl
    · exact memRead_store_of_ne s _ (hk ra ha)
  case push =>
    rcases exec_cases h with rfl | ⟨_, -, -, rfl⟩
    · rfl
    · exact memRead_store_of_ne (s.setSp (pushAddr s)) _ hk
  case call =>
    rcases exec_cases h with rfl | ⟨_, -, -, -, rfl⟩
    · rfl
    · exact memRead_store_of_ne (s.setSp (pushAddr s)) _ hk

/-- Settles O41. -/
theorem outputFrame : Obligations.OutputFrame := by
  intro i s t h
  rcases exec_cases h with rfl | hdone
  · exact ⟨fun _ => rfl, [], by simp [faultedAt], Nat.zero_le _⟩
  · obtain ⟨-, -, hout, -⟩ := hdone.frame
    exact ⟨hout, hdone.out_append⟩

/-- Settles O42. -/
theorem statusFrame : Obligations.StatusFrame := by
  intro i s t h
  rcases exec_cases h with hfault | hdone
  · exact .inr (.inr hfault)
  · rcases hdone.status_cases with hkept | hhalted
    · exact .inl hkept
    · exact .inr (.inl hhalted)

end Sys2Proof.Machine
end

