-- ==== Sys2Proof/Proofs/Invariants.lean ====
section
/-! SUPPORT. Everything a step can leave, and the four invariants that every step keeps
(spec/10_state.md sections 3 and 4; spec/20_memory.md section 1; spec/60_exceptions.md section 2). -/

namespace Sys2Proof.Machine

theorem opcode_of_codeByte_zero {s : State} {b : Byte} (h : s.codeByte 0 = some b) :
    memRead s.mem s.pc = b := by
  unfold State.codeByte at h
  split at h
  · exact Option.some_inj.mp h
  · cases h

/-- The record of a fetch past memory is truthful (R215). -/
theorem faultedAt_truthful_of_none {s : State} (h0 : s.codeByte 0 = none) :
    (faultedAt s .outOfBoundsAccess none).stopIsTruthful :=
  ⟨rfl, h0.symm, rfl⟩

/-- The record of an illegal opcode byte is truthful (R212). -/
theorem faultedAt_truthful_of_illegal {s : State} {b : Byte} (h0 : s.codeByte 0 = some b)
    (hb : decodeOpcode b = none) :
    (faultedAt s .illegalInstruction (some b)).stopIsTruthful :=
  ⟨rfl, h0.symm, (if_pos hb).symm⟩

/-- The record of an out-of-range access by a legal opcode is truthful (R213, R215). -/
theorem faultedAt_truthful_of_legal {s : State} {m : Mnemonic}
    (h0 : s.codeByte 0 = some m.opcode) :
    (faultedAt s .outOfBoundsAccess (some m.opcode)).stopIsTruthful :=
  ⟨rfl, h0.symm, (if_neg (by simp [decodeOpcode_opcode])).symm⟩

/-- Everything a step can leave: the same state in a stopped core, a fault with a truthful record, or
what the instruction fetched leaves when it completes. -/
theorem step_next_cases {s t : State} (h : step s = .next t) :
    (s.status ≠ .running ∧ t = s) ∨
      (∃ code opcode, t = faultedAt s code opcode ∧ t.stopIsTruthful) ∨
      (s.status = .running ∧ ∃ i, fetch s = .ok i ∧ Completed i s t) := by
  by_cases hs : s.status = .running
  case neg => exact .inl ⟨hs, next_inj ((step_of_not_running hs).symm.trans h)⟩
  refine .inr ?_
  cases h0 : s.codeByte 0 with
  | none =>
    obtain rfl := next_inj ((step_of_no_opcode hs h0).symm.trans h)
    exact .inl ⟨_, _, rfl, faultedAt_truthful_of_none h0⟩
  | some b =>
    cases hm : decodeOpcode b with
    | none =>
      obtain rfl := next_inj ((step_of_illegal hs h0 hm).symm.trans h)
      exact .inl ⟨_, _, rfl, faultedAt_truthful_of_illegal h0 hm⟩
    | some m =>
      obtain rfl := opcode_of_decodeOpcode hm
      rcases Nat.lt_or_ge (s.pc + operandCount m.opcode) 256 with hin | hpast
      · obtain ⟨i, rfl, hf, hstep⟩ := step_of_operands_in hs h0 hin
        rcases exec_cases (hstep.symm.trans h) with rfl | hdone
        · exact .inl ⟨_, _, rfl, faultedAt_truthful_of_legal h0⟩
        · exact .inr ⟨hs, i, hf, hdone⟩
      · obtain rfl := next_inj ((step_of_operands_past hs h0 hpast).symm.trans h)
        exact .inl ⟨_, _, rfl, faultedAt_truthful_of_legal h0⟩

/-- Settles O20: a Running core is left Faulted by a fault only, since a completed instruction leaves it
Running or Halted. -/
theorem faultsAreAllOrNothing : Obligations.FaultsAreAllOrNothing := by
  intro s t r hs h hr
  rcases step_next_cases h with ⟨hne, -⟩ | ⟨code, opcode, rfl, -⟩ | ⟨-, i, -, hdone⟩
  · exact absurd hs hne
  · rw [← hr]
    rfl
  · rcases hdone.status_cases with ⟨-, hst⟩ | ⟨-, hst⟩
    · simp [hst, hs] at hr
    · simp [hst] at hr

/-- A completed instruction keeps the canonical form: it stores at byte addresses, if at all. -/
theorem Completed.mem_wf {i : Instr} {s t : State} (h : Completed i s t) (hwf : s.mem.wf = true) :
    t.mem.wf = true := by
  cases i with
  | st =>
    obtain ⟨_, _, -, -, rfl⟩ := h
    exact wf_store _ _ hwf
  | push =>
    obtain ⟨_, -, -, rfl⟩ := h
    exact wf_store (s := s.setSp (pushAddr s)) _ _ hwf
  | call =>
    obtain ⟨_, -, -, -, rfl⟩ := h
    exact wf_store (s := s.setSp (pushAddr s)) _ _ hwf
  | ldi | prn | add | mul | cmp | pop | ret | hlt =>
    obtain ⟨-, hmem, -, -⟩ := h.frame
    rwa [hmem (by simp) (by simp) (by simp)]

/-- Settles O51: a fault leaves memory alone, and a completed instruction keeps its form. -/
theorem memoryStaysCanonical : Obligations.MemoryStaysCanonical := by
  intro s t hwf h
  rcases step_next_cases h with ⟨-, rfl⟩ | ⟨_, _, rfl, -⟩ | ⟨-, i, -, hdone⟩
  · exact hwf
  · exact hwf
  · exact hdone.mem_wf hwf

/-- An instruction whose bytes lie in memory leaves pc at most one past the last cell: CALL and RET jump
to a byte's value, the others advance past their last byte. -/
theorem Completed.pcInRange {i : Instr} {s t : State} (h : Completed i s t)
    (hin : s.pc + operandCount i.mnemonic.opcode < 256) : t.pcInRange := by
  cases i with
  | call r =>
    obtain ⟨rt, -, hpc⟩ := h.pc_call
    exact hpc.trans_le (t.reg rt).isLt.le
  | ret => exact h.pc_ret.trans_le (memRead s.mem (s.reg 7).toNat).isLt.le
  | ldi | prn | add | mul | cmp | push | pop | st | hlt =>
    have hpc := h.pc_of_not_setsPc rfl
    unfold State.pcInRange
    omega

/-- Settles O52, by the bound a fetch puts on the instruction's bytes. -/
theorem pcStaysInRange : Obligations.PcStaysInRange := by
  intro s t hpc h
  rcases step_next_cases h with ⟨-, rfl⟩ | ⟨_, _, rfl, -⟩ | ⟨-, i, hf, hdone⟩
  · exact hpc
  · exact hpc
  · obtain ⟨-, hin⟩ := fetch_ok hf
    exact hdone.pcInRange hin

theorem compareFlags_cases (a b : Byte) :
    compareFlags a b = 0x01 ∨ compareFlags a b = 0x02 ∨ compareFlags a b = 0x04 := by
  rcases Nat.lt_trichotomy a.toNat b.toNat with hlt | heq | hgt
  · exact .inr (.inr (compareFlags_of_lt hlt))
  · exact .inl (compareFlags_of_eq heq)
  · exact .inr (.inl (compareFlags_of_gt hgt))

/-- A completed instruction keeps FL one of four: CMP writes one of three, no other writes it. -/
theorem Completed.flOneOfFour {i : Instr} {s t : State} (h : Completed i s t)
    (hfl : s.flOneOfFour) : t.flOneOfFour := by
  by_cases hc : ∃ a b, i = .cmp a b
  · obtain ⟨a, b, rfl⟩ := hc
    obtain ⟨ra, rb, -, -, rfl⟩ := h
    exact .inr (compareFlags_cases _ _)
  · obtain ⟨hkept, -, -, -⟩ := h.frame
    unfold State.flOneOfFour
    rwa [hkept fun a b hi => hc ⟨a, b, hi⟩]

/-- The four values have no bit above bit 2. -/
theorem State.flOneOfFour.getLsbD {s : State} (h : s.flOneOfFour) {k : Nat} (hk : 3 ≤ k) :
    s.fl.getLsbD k = false := by
  have hlt : s.fl.toNat < 2 ^ 3 := by
    rcases h with h | h | h | h <;> rw [h] <;> decide
  exact Nat.testBit_eq_false_of_lt (hlt.trans_le (Nat.pow_le_pow_right (by decide) hk))

/-- Settles O53. -/
theorem flagsStayOneOfFour : Obligations.FlagsStayOneOfFour := by
  intro s t hfl h
  have hfl' : t.flOneOfFour := by
    rcases step_next_cases h with ⟨-, rfl⟩ | ⟨_, _, rfl, -⟩ | ⟨-, i, -, hdone⟩
    · exact hfl
    · exact hfl
    · exact hdone.flOneOfFour hfl
  exact ⟨hfl', fun _ hk => hfl'.getLsbD hk⟩

/-- A Running state says nothing that could be false. -/
theorem stopIsTruthful_of_running {s : State} (h : s.status = .running) : s.stopIsTruthful := by
  simp [State.stopIsTruthful, h]

/-- A fetched instruction that completes leaves a Running core, or is the HLT at pc and leaves a core
Halted just past it. -/
theorem Completed.stopIsTruthful {i : Instr} {s t : State} (h : Completed i s t)
    (hs : s.status = .running) (h0 : s.codeByte 0 = some i.mnemonic.opcode) : t.stopIsTruthful := by
  rcases h.status_cases with ⟨-, hst⟩ | ⟨rfl, -⟩
  · exact stopIsTruthful_of_running (hst.trans hs)
  · obtain rfl := h
    exact ⟨Nat.succ_pos _, opcode_of_codeByte_zero h0⟩

/-- Settles O54: a stopped core stays as it is, and each way a Running core can go on leaves a truthful
status. -/
theorem stoppedStatusStaysTruthful : Obligations.StoppedStatusStaysTruthful := by
  intro s t htrue h
  rcases step_next_cases h with ⟨-, rfl⟩ | ⟨_, _, rfl, hfault⟩ | ⟨hs, i, hf, hdone⟩
  · exact htrue
  · exact hfault
  · obtain ⟨h0, -⟩ := fetch_ok hf
    exact hdone.stopIsTruthful hs h0

end Sys2Proof.Machine
end

