-- ==== Sys2Proof/Proofs/HostSide.lean ====
section
/-! SUPPORT. Reset, the loader's answer, and the rendering of output (spec/10_state.md section 7;
spec/70_reset_and_hazards.md; spec/42_load_store_output.md R154). -/

namespace Sys2Proof.Machine

/-- Settles O8. -/
theorem resetValues : Obligations.ResetValues :=
  ⟨by decide, rfl, rfl, rfl, fun _ => rfl, rfl, rfl⟩

/-- Settles O9: pc and FL are at the bottom of their ranges, and reset is Running. -/
theorem resetMeetsInvariants : Obligations.ResetMeetsInvariants :=
  ⟨wf_reset, Nat.zero_le 256, .inl rfl, stopIsTruthful_of_running rfl⟩

/-- The loader refuses an image that exceeds memory (R244). -/
theorem loadImage_of_gt {image : List Byte} (s : State) (h : 256 < image.length) :
    loadImage image s = .fault .programTooLarge := by
  simp [loadImage, h]

/-- Settles O11. -/
theorem oversizeImageIsRefused : Obligations.OversizeImageIsRefused :=
  ⟨fun _ s h => loadImage_of_gt s h, fun _ s h => ⟨_, loadImage_of_le s h.le, rfl⟩⟩

/-- Settles O12: the loader changes memory and the status of the reset state only. -/
theorem bootStartsRunningAtZero : Obligations.BootStartsRunningAtZero :=
  fun _ h => ⟨_, loadImage_of_le State.reset h, rfl, rfl, rfl⟩

/-! Rendering. -/

theorem decimalDigit_toNat {n : Nat} (h : n < 10) : (decimalDigit n).toNat = 48 + n := by
  have hall : ∀ n < 10, (decimalDigit n).toNat = 48 + n := by decide
  exact hall n h

theorem decimalDigit_ne_zero {n : Nat} (h0 : 0 < n) (h : n < 10) : decimalDigit n ≠ '0' := by
  intro e
  have hn := decimalDigit_toNat h
  rw [e] at hn
  have hzero : '0'.toNat = 48 := rfl
  omega

theorem renderByte_of_lt_ten {v : Byte} (h : v.toNat < 10) :
    renderByte v = [decimalDigit v.toNat] := by
  simp [renderByte, h]

theorem renderByte_of_lt_hundred {v : Byte} (h : 10 ≤ v.toNat) (h' : v.toNat < 100) :
    renderByte v = [decimalDigit (v.toNat / 10), decimalDigit (v.toNat % 10)] := by
  simp [renderByte, h.not_gt, h']

theorem renderByte_of_ge_hundred {v : Byte} (h : 100 ≤ v.toNat) :
    renderByte v = [decimalDigit (v.toNat / 100), decimalDigit (v.toNat / 10 % 10),
      decimalDigit (v.toNat % 10)] := by
  have hten : 10 ≤ v.toNat := by omega
  simp [renderByte, hten.not_gt, h.not_gt]

/-- Settles O14: one, two or three digits, the first of which is not 0 unless it stands alone. -/
theorem outputRendersDecimal : Obligations.OutputRendersDecimal := by
  refine ⟨rfl, fun v => ?_⟩
  have hv : v.toNat < 256 := v.isLt
  rcases Nat.lt_or_ge v.toNat 10 with hten | hten
  · rw [renderByte_of_lt_ten hten]
    simp [decimalDigit_toNat hten]
    omega
  have hones := decimalDigit_toNat (by omega : v.toNat % 10 < 10)
  rcases Nat.lt_or_ge v.toNat 100 with hhun | hhun
  · rw [renderByte_of_lt_hundred hten hhun]
    have htens := decimalDigit_toNat (by omega : v.toNat / 10 < 10)
    have hlead := decimalDigit_ne_zero (by omega : 0 < v.toNat / 10) (by omega)
    simp [hones, htens, hlead]
    omega
  · rw [renderByte_of_ge_hundred hhun]
    have htens := decimalDigit_toNat (by omega : v.toNat / 10 % 10 < 10)
    have hhundreds := decimalDigit_toNat (by omega : v.toNat / 100 < 10)
    have hlead := decimalDigit_ne_zero (by omega : 0 < v.toNat / 100) (by omega)
    simp [hones, htens, hhundreds, hlead]
    omega

end Sys2Proof.Machine
end

