-- ==== Sys2Proof/Proofs/StackPairs.lean ====
section
/-! SUPPORT. PUSH then POP, CALL then RET, and pushes in a row (spec/43_stack_subroutine.md
section 2). -/

namespace Sys2Proof.Machine

theorem pushAddr_add_one (s : State) : pushAddr s + 1 = s.sp := BitVec.sub_add_cancel s.sp 1

/-- The stack pointer a push leaves can be incremented again. -/
theorem pushAddr_ne_max {s : State} (h : s.sp ≠ 0) : pushAddr s ≠ 255 := by
  intro e
  have hsp := pushAddr_add_one s
  rw [e] at hsp
  exact h hsp.symm

/-- Where the stack's top is the value the register holds, POP only moves SP and pc. -/
theorem exec_pop_of_stackTop_eq {t : State} {d : Byte} {rd : Fin 8} (hd : checkReg d = .ok rd)
    (htop : stackTop t = t.reg rd) (hsp : t.sp ≠ 255) :
    exec (.pop d) t = .next ((t.setSp (t.sp + 1)).setPc (t.pc + 2)) := by
  have hsame : t.setReg rd (stackTop t) = t := by rw [htop, setReg_reg_self]
  exact exec_of_completed ⟨rd, hd, by rwa [hsame], by rw [hsame]⟩

/-- What PUSH and CALL leave: SP decremented, a byte in the cell it then addresses, and a new pc. -/
def pushed (s : State) (v : Byte) (p : Nat) : State :=
  ((s.setSp (pushAddr s)).store (pushAddr s) v).setPc p

@[simp] theorem pushed_sp (s : State) (v : Byte) (p : Nat) : (pushed s v p).sp = pushAddr s :=
  sp_setSp s _

/-- The byte a push stores is the new top of the stack. -/
@[simp] theorem stackTop_pushed (s : State) (v : Byte) (p : Nat) : stackTop (pushed s v p) = v := by
  rw [stackTop, pushed_sp]
  exact memRead_memWrite_same s.mem _ v

theorem exec_push_eq_pushed {s : State} {r : Byte} (hr : r.toNat < 8) (hsp : s.sp ≠ 0) :
    exec (.push r) s =
      .next (pushed s ((s.setSp (pushAddr s)).reg ⟨r.toNat, hr⟩) (s.pc + 2)) :=
  exec_of_completed ⟨_, checkReg_of_lt hr, hsp, rfl⟩

theorem exec_call_eq_pushed {s : State} {r : Byte} (hr : r.toNat < 8) (hsp : s.sp ≠ 0)
    (hpc : s.pc + 2 < 256) :
    exec (.call r) s = .next (pushed s (BitVec.ofNat 8 (s.pc + 2))
      ((s.setSp (pushAddr s)).reg ⟨r.toNat, hr⟩).toNat) :=
  exec_of_completed ⟨_, checkReg_of_lt hr, hsp, hpc, rfl⟩

/-- Settles O44: PUSH leaves the register's value on top, so POP writes it back where it stands and
undoes the decrement. -/
theorem pushThenPopRestores : Obligations.PushThenPopRestores := by
  intro s r hr hsp
  have htop := stackTop_pushed s ((s.setSp (pushAddr s)).reg ⟨r.toNat, hr⟩) (s.pc + 2)
  have hroom := (pushed_sp s ((s.setSp (pushAddr s)).reg ⟨r.toNat, hr⟩) (s.pc + 2)).trans_ne
    (pushAddr_ne_max hsp)
  refine ⟨_, _, exec_push_eq_pushed hr hsp,
    exec_pop_of_stackTop_eq (checkReg_of_lt hr) htop hroom, ?regs, rfl, rfl, ?cell⟩
  case regs =>
    have hback : ((s.setReg 7 (pushAddr s)).setReg 7 (s.reg 7)).x = s.x := by
      rw [setReg_setReg, setReg_reg_self]
    rw [pushed_sp, pushAddr_add_one]
    exact hback
  case cell =>
    rw [stackTop, State.load, pushed_sp, pushAddr_toNat hsp] at htop
    exact htop

/-- Settles O45: SP and the cell it addresses are as CALL left them, so RET pops the return address and
undoes the decrement. -/
theorem returnResumesAfterCall : Obligations.ReturnResumesAfterCall := by
  intro s r hr hsp hpc
  refine ⟨_, exec_call_eq_pushed hr hsp hpc, fun u hu hmem => ?_⟩
  have hcall : u.x[7] = pushAddr s := hu.trans (pushed_sp s _ _)
  have hret : memRead u.mem u.x[7].toNat = BitVec.ofNat 8 (s.pc + 2) :=
    hmem.trans (stackTop_pushed s _ _)
  refine ⟨_, retPopsPc u (hcall.trans_ne (pushAddr_ne_max hsp)), ?pc, ?sp⟩
  case pc =>
    rw [hret]
    exact Nat.mod_eq_of_lt hpc
  case sp =>
    rw [hcall, pushAddr_add_one]
    exact reg_setReg_same u 7 s.sp

/-- One push, in the terms in which pushes in a row are counted. -/
theorem exec_push_of_sp_pos {s : State} {r : Byte} (hr : r.toNat < 8) (hsp : 0 < s.x[7].toNat) :
    ∃ t, exec (.push r) s = .next t ∧ t.status = s.status ∧
      t.x[7].toNat = s.x[7].toNat - 1 ∧ t.pc = s.pc + 2 := by
  have hne : s.x[7] ≠ 0 := fun e => by simp [e] at hsp
  refine ⟨_, exec_push_eq_pushed hr hne, rfl, ?_, rfl⟩
  exact (congrArg BitVec.toNat (pushed_sp s _ _)).trans (pushAddr_toNat hne)

/-- As many pushes as SP counts complete, each moving SP down by one and pc up by two. -/
theorem pushTimes_of_le {r : Byte} (hr : r.toNat < 8) (k : Nat) (s : State)
    (hk : k ≤ s.x[7].toNat) :
    ∃ t, pushTimes r k s = some t ∧ t.status = s.status ∧
      t.x[7].toNat = s.x[7].toNat - k ∧ t.pc = s.pc + 2 * k := by
  induction k generalizing s with
  | zero => exact ⟨s, rfl, rfl, rfl, rfl⟩
  | succ k ih =>
    obtain ⟨t, hstep, hstatus, hsp, hpc⟩ := exec_push_of_sp_pos hr (by omega : 0 < s.x[7].toNat)
    obtain ⟨u, hrest, hstatus', hsp', hpc'⟩ := ih t (by omega)
    refine ⟨u, ?_, hstatus'.trans hstatus, by omega, by omega⟩
    simp [pushTimes, hstep, nextState, hrest]

/-- Settles O47: SP pushes take SP to 0, where the next overflows. -/
theorem stackDepthIsSp : Obligations.StackDepthIsSp := by
  refine ⟨rfl, fun s r hr => ⟨fun k hk => pushTimes_of_le hr k s hk, ?_⟩⟩
  obtain ⟨t, hpush, -, hsp, -⟩ := pushTimes_of_le hr _ s le_rfl
  have hempty : t.x[7] = 0 := BitVec.eq_of_toNat_eq (hsp.trans (Nat.sub_self _))
  obtain ⟨hfault, -⟩ := stackOverflowFaults t r hempty
  exact ⟨t, hpush, hfault⟩

end Sys2Proof.Machine
end

