-- ==== Sys2Proof/Proofs/StoredByte.lean ====
section
/-! SUPPORT. Every fetch sees the byte in its cell, so it sees a byte an instruction stored
(spec/20_memory.md R65). -/

namespace Sys2Proof.Machine

/-- The fetch has no other source than memory: what a cell holds is what every fetch of it sees. -/
theorem fetchSees_of_memRead {m : Memory} {a : Nat} {b : Byte} (ha : a < 256)
    (hb : memRead m a = b) : FetchSees m a b := by
  intro q hq
  have hcode : ∀ k : Nat, q.pc + k = a → q.codeByte k = some b := by
    rintro k rfl
    rw [codeByte_of_lt ha, hq, hb]
  refine ⟨hcode, fun hs hpc => ?_⟩
  have h0 := hcode 0 hpc
  cases hm : decodeOpcode b with
  | none => exact step_of_illegal hs h0 hm
  | some row =>
    obtain rfl := opcode_of_decodeOpcode hm
    by_cases hin : q.pc + operandCount row.opcode < 256
    · obtain ⟨i, hrow, -, hstep⟩ := step_of_operands_in hs h0 hin
      simp only [hin, if_true]
      exact ⟨i, hrow, hstep⟩
    · simp only [hin, if_false]
      exact step_of_operands_past hs h0 (Nat.not_lt.mp hin)

/-- Settles O50: each of the three leaves its byte in its cell. -/
theorem fetchSeesStoredByte : Obligations.FetchSeesStoredByte := by
  refine ⟨fun s a v ha hv => ?st, fun s src hsrc hsp => ?push, fun s tgt ht hsp hpc => ?call⟩
  case st =>
    obtain ⟨t, hexec, -, hmem⟩ := stWritesCell s a v ha hv
    exact ⟨t, hexec, fetchSees_of_memRead s.x[a.toNat].isLt ((hmem _).trans (if_pos rfl))⟩
  case push =>
    obtain ⟨t, hexec, -, hmem⟩ := pushWritesBelowStack s src hsrc hsp
    exact ⟨t, hexec, fetchSees_of_memRead ((Nat.sub_le _ _).trans_lt s.x[7].isLt)
      ((hmem _).trans (if_pos rfl))⟩
  case call =>
    obtain ⟨t, hexec, -, hmem⟩ := callPushesReturnAddress s tgt ht hsp hpc
    have hcell : memRead t.mem (s.x[7].toNat - 1) = BitVec.ofNat 8 (s.pc + 2) :=
      BitVec.eq_of_toNat_eq (((hmem _).trans (if_pos rfl)).trans (Nat.mod_eq_of_lt hpc).symm)
    exact ⟨t, hexec, fetchSees_of_memRead ((Nat.sub_le _ _).trans_lt s.x[7].isLt) hcell⟩

end Sys2Proof.Machine
end

