-- ==== Sys2Proof/Proofs/Noninterference.lean ====
section
/-! SUPPORT. What an instruction does not read does not matter to it: a register it does not name, and
FL (spec/10_state.md sections 2 and 4; decision D14). -/

namespace Sys2Proof.Machine

/-- If an instruction completes from two states alike, with related results, and their faults are
related too, its answers are related. -/
theorem exec_related {R : State → State → Prop} {i : Instr} {s s' : State}
    (hdone : ∀ t, Completed i s t → ∃ t', Completed i s' t' ∧ R t t')
    (hback : ∀ t', Completed i s' t' → ∃ t, Completed i s t)
    (hfault : R (faultedAt s .outOfBoundsAccess (some i.mnemonic.opcode))
      (faultedAt s' .outOfBoundsAccess (some i.mnemonic.opcode))) :
    ∃ t t', exec i s = .next t ∧ exec i s' = .next t' ∧ R t t' := by
  by_cases h : ∃ t, Completed i s t
  · obtain ⟨t, ht⟩ := h
    obtain ⟨t', ht', hR⟩ := hdone t ht
    exact ⟨t, t', exec_of_completed ht, exec_of_completed ht', hR⟩
  · have hs' : ∀ t', ¬ Completed i s' t' := fun t' ht' => h (hback t' ht')
    exact ⟨_, _, exec_of_not_completed (not_exists.mp h), exec_of_not_completed hs', hfault⟩

/-! A register that an instruction does not name. -/

theorem setReg_comm (s : State) {i j : Fin 8} (v w : Byte) (h : i ≠ j) :
    (s.setReg i v).setReg j w = (s.setReg j w).setReg i v := by
  have hx : (s.x.set i v).set j w = (s.x.set j w).set i v :=
    Vector.set_comm _ _ fun e => h (Fin.ext e)
  simp [State.setReg, hx]

section
variable (s : State) {r : Fin 8} (v : Byte) (hr : r ≠ Config.spIndex)
include hr

theorem pushAddr_setReg_of_ne : pushAddr (s.setReg r v) = pushAddr s := by
  rw [pushAddr, sp_setReg_of_ne s v hr, pushAddr]

theorem stackTop_setReg_of_ne : stackTop (s.setReg r v) = stackTop s := by
  rw [stackTop, sp_setReg_of_ne s v hr]
  rfl

theorem setSp_setReg_of_ne (w : Byte) : (s.setReg r v).setSp w = (s.setSp w).setReg r v :=
  setReg_comm s v w hr

end

/-- A completion stays one when a register that the instruction does not name, and that is not SP, holds
another value. -/
theorem Completed.setReg {i : Instr} {s t : State} (h : Completed i s t) {r : Fin 8} (v : Byte)
    (hr : r ≠ Config.spIndex) (hnamed : ∀ b ∈ i.regOperands, b.toNat ≠ r.val) :
    Completed i (s.setReg r v) (t.setReg r v) := by
  have hne : ∀ {b : Byte} {rd : Fin 8}, b ∈ i.regOperands → checkReg b = .ok rd → r ≠ rd :=
    fun hb hrd => (ne_of_checkReg hrd (hnamed _ hb).symm).symm
  cases i with
  | ldi =>
    obtain ⟨rd, hd, rfl⟩ := h
    refine ⟨rd, hd, ?_⟩
    rw [setReg_comm s v _ (hne (by simp [Instr.regOperands]) hd)]
    rfl
  | prn =>
    obtain ⟨rs, hs, rfl⟩ := h
    refine ⟨rs, hs, ?_⟩
    rw [reg_setReg_of_ne s v (hne (by simp [Instr.regOperands]) hs)]
    rfl
  | add | mul =>
    obtain ⟨ra, rb, ha, hb, rfl⟩ := h
    have hra := hne (by simp [Instr.regOperands]) ha
    refine ⟨ra, rb, ha, hb, ?_⟩
    rw [setReg_comm s v _ hra, reg_setReg_of_ne s v hra,
      reg_setReg_of_ne s v (hne (by simp [Instr.regOperands]) hb)]
    rfl
  | cmp | st =>
    obtain ⟨ra, rb, ha, hb, rfl⟩ := h
    refine ⟨ra, rb, ha, hb, ?_⟩
    rw [reg_setReg_of_ne s v (hne (by simp [Instr.regOperands]) ha),
      reg_setReg_of_ne s v (hne (by simp [Instr.regOperands]) hb)]
    rfl
  | push =>
    obtain ⟨rs, hs, hsp, rfl⟩ := h
    refine ⟨rs, hs, (sp_setReg_of_ne s v hr).trans_ne hsp, ?_⟩
    rw [pushAddr_setReg_of_ne s v hr, setSp_setReg_of_ne s v hr,
      reg_setReg_of_ne _ v (hne (by simp [Instr.regOperands]) hs)]
    rfl
  | pop =>
    obtain ⟨rd, hd, hsp, rfl⟩ := h
    have hrd := hne (by simp [Instr.regOperands]) hd
    have hwrite : (s.setReg r v).setReg rd (stackTop (s.setReg r v)) =
        (s.setReg rd (stackTop s)).setReg r v := by
      rw [stackTop_setReg_of_ne s v hr, setReg_comm s v _ hrd]
    refine ⟨rd, hd, ?_, ?_⟩
    · rwa [hwrite, sp_setReg_of_ne _ v hr]
    · rw [hwrite, sp_setReg_of_ne _ v hr, setSp_setReg_of_ne _ v hr]
      rfl
  | call =>
    obtain ⟨rt, ht, hsp, hpc, rfl⟩ := h
    refine ⟨rt, ht, (sp_setReg_of_ne s v hr).trans_ne hsp, hpc, ?_⟩
    rw [pushAddr_setReg_of_ne s v hr, setSp_setReg_of_ne s v hr,
      reg_setReg_of_ne _ v (hne (by simp [Instr.regOperands]) ht)]
    rfl
  | ret =>
    obtain ⟨hsp, rfl⟩ := h
    refine ⟨(sp_setReg_of_ne s v hr).trans_ne hsp, ?_⟩
    rw [sp_setReg_of_ne s v hr, setSp_setReg_of_ne s v hr, stackTop_setReg_of_ne s v hr]
    rfl
  | hlt =>
    obtain rfl := h
    rfl

/-- Settles O48: with the register's own value put back, a completion from the changed state is one from
the old state. -/
theorem reservedRegistersAreInert : Obligations.ReservedRegistersAreInert := by
  intro i s r v hr56 hnamed
  have hr : r ≠ Config.spIndex := by
    rcases hr56 with rfl | rfl <;> decide
  have hback : ∀ t', Completed i (s.setReg r v) t' → ∃ t, Completed i s t := fun t' h =>
    ⟨_, by simpa using h.setReg (s.reg r) hr hnamed⟩
  obtain ⟨t, t', ht, ht', rfl⟩ := exec_related (R := fun t t' => t' = t.setReg r v)
    (fun t h => ⟨_, h.setReg v hr hnamed, rfl⟩) hback rfl
  exact ⟨t, ht, ht'⟩

/-! The flags. -/

/-- A completion stays one, with the same result outside FL, when FL holds another value. -/
theorem Completed.setFl {i : Instr} {s t : State} (h : Completed i s t) (fl : Byte) :
    ∃ u, Completed i (s.setFl fl) u ∧ u = t.setFl u.fl := by
  cases i with
  | ldi | prn =>
    obtain ⟨r, hr, rfl⟩ := h
    exact ⟨_, ⟨r, hr, rfl⟩, rfl⟩
  | add | mul | cmp | st =>
    obtain ⟨ra, rb, ha, hb, rfl⟩ := h
    exact ⟨_, ⟨ra, rb, ha, hb, rfl⟩, rfl⟩
  | push | pop =>
    obtain ⟨r, hr, hsp, rfl⟩ := h
    exact ⟨_, ⟨r, hr, hsp, rfl⟩, rfl⟩
  | call =>
    obtain ⟨r, hr, hsp, hpc, rfl⟩ := h
    exact ⟨_, ⟨r, hr, hsp, hpc, rfl⟩, rfl⟩
  | ret =>
    obtain ⟨hsp, rfl⟩ := h
    exact ⟨_, ⟨hsp, rfl⟩, rfl⟩
  | hlt =>
    obtain rfl := h
    exact ⟨_, rfl, rfl⟩

/-- Settles O49: the old state is the changed one with its own FL put back. -/
theorem flagsAreNeverRead : Obligations.FlagsAreNeverRead := by
  intro i s fl
  have hback : ∀ u, Completed i (s.setFl fl) u → ∃ t, Completed i s t := fun u h =>
    let ⟨t, ht, _⟩ := h.setFl s.fl
    ⟨t, ht⟩
  exact exec_related (R := fun t u => u = t.setFl u.fl) (fun t h => h.setFl fl) hback rfl

end Sys2Proof.Machine
end
